-- ==== Sys2Proof/Word.lean ====
section
/-! DEFINITION. The words of the machine and the plain records the rules pass around (spec/10 R21, R23, R26;
spec/20 R50, R51; spec/42 R151). -/

namespace Sys2Proof

/-- A value of type `F`: a binary32 bit pattern (R151; `f32` is the identity on patterns). -/
abbrev F := BitVec 32

/-- One sample cell: `W = 16` bits, two's complement (R51). -/
abbrev Cell := BitVec 16

/-- The two channels (`NCH = 2`, R6). -/
inductive Channel where
  | ch0
  | ch1
  deriving DecidableEq, Repr, Inhabited

/-- One AudioBlock (R50), as the sorted list of its nonzero cells: an index that is not listed holds the sample
`0x0000`. The canonical form is `Block.wf` (WellFormed.lean); log 1. -/
abbrev Block := List (Nat × Cell)

/-- The two block spaces `BLK[0]` and `BLK[1]` (R50). -/
structure Memory where
  b0 : Block
  b1 : Block
  deriving DecidableEq, Repr, Inhabited

/-- A CoefficientSet `(b0, b1, b2, a1, a2)`, normalised so that `a0 = 1` (R23). -/
structure CoefficientSet where
  b0 : F
  b1 : F
  b2 : F
  a1 : F
  a2 : F
  deriving DecidableEq, Repr, Inhabited

/-- The two stored FilterParameters, centre frequency and quality factor (R21). The third member, `sampleRate`, is
the parameter `FS` (R22). -/
structure FilterParameters where
  f : F
  q : F
  deriving DecidableEq, Repr, Inhabited

/-- The delay registers of one channel (R26): `d0`, `d1` the previous two dequantised inputs, `d2`, `d3` the previous
two outputs. -/
structure ChannelState where
  d0 : F
  d1 : F
  d2 : F
  d3 : F
  deriving DecidableEq, Repr, Inhabited

end Sys2Proof
end

