-- ==== Sys2Proof/Syntax.lean ====
section
/-! DEFINITION. The operations a port can issue, one constructor per row of spec/opcode_table.json (spec/00 R3,
spec/30 R86), and the words the ports carry (spec/30 R80, R81, R83). -/

namespace Sys2Proof

/-- The externally issued operations. RECOMP, SAMPLE, PROC.BEGIN and PROC.END have no encoding (R89) and are no
constructors: they are functions of the machine. -/
inductive Instr where
  /-- SETF, `setCenterFrequency(v)` (R102). -/
  | setf (v : F)
  /-- SETQ, `setQualityFactor(v)` (R103). -/
  | setq (v : F)
  /-- PROC.RUN, `processBlock` with both blocks supplied (R121). -/
  | procRun
  /-- PROC.SKIP.B, both blocks withheld (R122). -/
  | procSkipB
  /-- PROC.SKIP.0, block 0 withheld, block 1 supplied (R122). -/
  | procSkip0
  /-- PROC.SKIP.1, block 1 withheld, block 0 supplied (R122). -/
  | procSkip1
  /-- RESET (R211). -/
  | reset
  deriving DecidableEq, Repr

/-- The three interfaces (R80). -/
inductive Port where
  /-- The reset input. -/
  | rst
  /-- The control port CTL. -/
  | ctl
  /-- The audio port AUD. -/
  | aud
  deriving DecidableEq, Repr

/-- What is presented at a port: a word of `width` bits, `bits` its value with bit 0 the least significant (R12). -/
structure Frame where
  port  : Port
  width : Nat
  bits  : Nat
  deriving DecidableEq, Repr

/-- The payload of an audio transaction (R83): each block, or nothing where the host withholds it. -/
structure Supply where
  b0 : Option Block
  b1 : Option Block
  deriving DecidableEq, Repr

end Sys2Proof
end

