-- ==== Sys2Proof/WellFormed.lean ====
section
/-! DEFINITION. The checks on syntax: frames (spec/30 R81, R83, R88), blocks (spec/20 R56, R60) and supplies
(spec/30 R83). Every operation term is well formed: every 32-bit operand decodes (R84) and no encoding is reserved
(R87). -/

namespace Sys2Proof

/-- The one width a port's words have (R80, R81, R83, R88). -/
def Port.width : Port → Nat
  | .rst => 1
  | .ctl => 33
  | .aud => 2

/-- A frame the port can carry: the port's width, and no bit above it. -/
def Frame.wf (f : Frame) : Bool :=
  f.width == f.port.width && decide (f.bits < 2 ^ f.port.width)

/-- The canonical form from index `lo` on: indices strictly rising and below `n`, no zero cell listed. -/
def Block.wfFrom (n : Nat) : Nat → Block → Bool
  | _, [] => true
  | lo, (a, v) :: rest => decide (lo ≤ a) && decide (a < n) && v != 0#16 && Block.wfFrom n (a + 1) rest

/-- A block of exactly `n` cells in canonical form (R56, R60: the valid addresses are `0` to `n - 1`; log 1). -/
def Block.wf (n : Nat) (b : Block) : Bool := Block.wfFrom n 0 b

/-- Both block spaces are blocks of `n` cells in canonical form. -/
def Memory.wf (n : Nat) (m : Memory) : Bool := Block.wf n m.b0 && Block.wf n m.b1

/-- The availability flags `(avail0, avail1)` of an operation's header (R83); no flag at the other two ports. -/
def Instr.avail : Instr → Bool × Bool
  | .setf _ => (false, false)
  | .setq _ => (false, false)
  | .procRun => (true, true)
  | .procSkipB => (false, false)
  | .procSkip0 => (false, true)
  | .procSkip1 => (true, false)
  | .reset => (false, false)

/-- A block that is there if and only if its flag says so, and then is one of exactly `n` cells (R56, R83). -/
def Supply.partWf (n : Nat) (flag : Bool) : Option Block → Bool
  | none => !flag
  | some b => flag && Block.wf n b

/-- A payload that the operation's header announces (R83; D22: a block of another length cannot be presented). -/
def Supply.wf (n : Nat) (i : Instr) (p : Supply) : Bool :=
  Supply.partWf n i.avail.1 p.b0 && Supply.partWf n i.avail.2 p.b1

/-- Every operation term is well formed: no operand pattern and no encoding is illegal (R84, R87). -/
def Instr.wf : Instr → Bool
  | .setf _ => true
  | .setq _ => true
  | .procRun => true
  | .procSkipB => true
  | .procSkip0 => true
  | .procSkip1 => true
  | .reset => true

end Sys2Proof
end

