-- ==== Sys2Proof/Decode.lean ====
section
/-! DEFINITION. From a port's word to an operation and back (spec/30 R81, R83, R84, R86, R87). Decoding is total on
every frame and rejects by name. -/

namespace Sys2Proof

/-- Why a frame is no operation. -/
inductive DecodeError where
  /-- The width is not the port's (R88: the command word is always 33 bits, the header always 2, `rst` is 1 bit). -/
  | wrongWidth
  /-- A bit is set above the frame's width. -/
  | bitsAboveWidth
  /-- The reset input at 0: nothing is asked for (R80). -/
  | noRequest
  deriving DecidableEq, Repr

/-- The control command word: `cmd[32]` selects, `cmd[31:0]` is the operand (R81, R84, R86). -/
def decodeCommand (cmd : BitVec 33) : Instr :=
  if cmd.getLsbD 32 then .setq (cmd.extractLsb' 0 32) else .setf (cmd.extractLsb' 0 32)

/-- The audio header `{avail1, avail0}` (R83, R86). -/
def decodeHeader (hdr : BitVec 2) : Instr :=
  match hdr.getLsbD 1, hdr.getLsbD 0 with
  | true, true => .procRun
  | true, false => .procSkip0
  | false, true => .procSkip1
  | false, false => .procSkipB

/-- The reset input (R80, R86). -/
def decodeReset (level : BitVec 1) : Except DecodeError Instr :=
  if level.getLsbD 0 then .ok .reset else .error .noRequest

/-- The operation a frame asks for: the interface selects the family and one or two bits the operation (R86). -/
def decode (f : Frame) : Except DecodeError Instr :=
  if f.width ≠ f.port.width then .error .wrongWidth
  else if 2 ^ f.port.width ≤ f.bits then .error .bitsAboveWidth
  else match f.port with
    | .ctl => .ok (decodeCommand (BitVec.ofNat 33 f.bits))
    | .aud => .ok (decodeHeader (BitVec.ofNat 2 f.bits))
    | .rst => decodeReset (BitVec.ofNat 1 f.bits)

/-- The word of an operation, from the map of R86. -/
def encode : Instr → Frame
  | .setf v => ⟨.ctl, 33, ((0#1) ++ v).toNat⟩
  | .setq v => ⟨.ctl, 33, ((1#1) ++ v).toNat⟩
  | .procRun => ⟨.aud, 2, 0b11⟩
  | .procSkipB => ⟨.aud, 2, 0b00⟩
  | .procSkip0 => ⟨.aud, 2, 0b10⟩
  | .procSkip1 => ⟨.aud, 2, 0b01⟩
  | .reset => ⟨.rst, 1, 1⟩

/-- The frame of a table word: the interface is read off the number of bits. 33 bits (40 in whole bytes) is a command
word, 2 bits (8 in whole bytes) a header, 1 bit the reset input. The table does not write the interface into the word,
so one byte holding 1 could be PROC.SKIP.1 or RESET; it is taken as the header (log 17). -/
def tableFrame (nbits w : Nat) : Frame :=
  if nbits = 33 ∨ nbits = 40 then ⟨.ctl, 33, w⟩
  else if nbits = 2 ∨ nbits = 8 then ⟨.aud, 2, w⟩
  else ⟨.rst, nbits, w⟩

/-- The operation the decoder reads from a word of spec/opcode_table.json. -/
def decodeTableWord (nbits w : Nat) : Option Instr :=
  match decode (tableFrame nbits w) with
  | .ok i => some i
  | .error _ => none

end Sys2Proof
end

