-- ==== Sys2Proof/Config.lean ====
section
/-! DEFINITION. What is fixed when the hardware is built (spec/00 R6, spec/70 R215), and the free values: constants
with no body, of which nothing can be proved but that they are functions of their arguments. -/

namespace Sys2Proof

/-- The parameters that are plain data (R6). An instance carries them unchanged for its lifetime; State holds them in
its field `cfg` because exec's form has no other place for an argument (log 2). -/
structure Config where
  /-- `N`, samples per AudioBlock per channel. -/
  N : Nat
  /-- `FS`, the sample rate in hertz. -/
  FS : F
  /-- `IN_SCALE`, the dequantisation factor. -/
  inScale : F
  /-- `OUT_SCALE`, the quantisation factor. -/
  outScale : F
  /-- `F0_DEFAULT`, the centre frequency after reset. -/
  f0Default : F
  /-- `Q0_DEFAULT`, the quality factor after reset. -/
  q0Default : F
  deriving DecidableEq, Repr, Inhabited

/-- The numerics record `NUM` (R150), its type `F` fixed to binary32 (D6). -/
structure Numerics where
  fadd : F → F → F
  fsub : F → F → F
  fmul : F → F → F
  fdiv : F → F → F
  fneg : F → F
  fsin : F → F
  fcos : F → F
  i2f : Int → F
  ftrunc : F → Option Int
  flt : F → F → Bool
  fgt : F → F → Bool
  isfinite : F → Bool
  zero : F
  one : F
  two : F
  twoPi : F
  f32 : BitVec 32 → F

/-- The parameters that are functions (R6): the numerics and the out-of-range quantisation `QOVF`. -/
structure Impl where
  num : Numerics
  qovf : F → Cell

/-- Where a NaN can be generated or passed on; the free NaN pattern may depend on it. -/
inductive NanSite where
  | add
  | mul
  | div
  | neg
  | sin
  | cos
  deriving DecidableEq, Repr

/-- TESTCFG-B of R8 with `N = 4`, `F0_DEFAULT = 1000.0` and `Q0_DEFAULT = 0x3F3504F3` (spec/95). A test fixture. -/
def Config.fixture : Config :=
  ⟨4, 0x473B8000#32, 0x38000000#32, 0x47000000#32, 0x447A0000#32, 0x3F3504F3#32⟩

/-- The parameters the hardware is built with, where they meet R6's constraints (see `buildConfig`). OPEN (D11, D14,
D15; U4 to U6; log 2). -/
opaque Config.raw : Config

/-- The sine of a finite angle. OPEN (R154, D7, U7; log 4). -/
opaque Config.sinBits : F → F

/-- The cosine of a finite angle. OPEN (R154, D7, U7; log 4). -/
opaque Config.cosBits : F → F

/-- Which NaN an operation returns, before it is made a NaN pattern. Unspecified (R155, U8; log 5). -/
opaque Config.nanBits : NanSite → F → F → F

/-- `QOVF`. OPEN (R160, D13, U1; log 6). -/
opaque Config.qovf : F → Cell

/-- What the latch `K` holds after RESET. Unspecified (R211, U9; log 9). -/
opaque Config.freeLatch : Nat → CoefficientSet

/-- What `seq.c` holds after RESET. Unspecified (R211, U9; log 9). -/
opaque Config.freeChannel : Nat → Channel

/-- What `seq.i` holds after RESET, before it is brought into `0 … N`. Unspecified (R211, U9; log 9). -/
opaque Config.freeIndex : Nat → Nat

/-- Whether a cell of a block abandoned by RESET holds its input value (else its filtered value). Unspecified (R212,
U10; log 10). -/
opaque Config.keepsInput : Nat → Channel → Nat → Bool

end Sys2Proof
end

