-- ==== Sys2Proof/Machine/Numerics.lean ====
section
/-! DEFINITION. Binary32 arithmetic (spec/42 R151 to R158) and the numerics record of this hardware (R150). A finite
value is held as its sign and its exact magnitude, a whole number of units `2^-150`; every operation computes exactly
on those numbers and rounds once. -/

namespace Sys2Proof.Machine

/-- Bit 31, the sign (R151). -/
def signBit (x : F) : Bool := x.getLsbD 31

/-- Bits 30 to 23, the biased exponent (R151). -/
def expField (x : F) : Nat := x.toNat / 2 ^ 23 % 2 ^ 8

/-- Bits 22 to 0, the fraction (R151). -/
def fracField (x : F) : Nat := x.toNat % 2 ^ 23

/-- A NaN: `e = 255`, `m ≠ 0` (R151). -/
def isNaN (x : F) : Bool := expField x == 255 && fracField x != 0

/-- An infinity: `e = 255`, `m = 0` (R151). -/
def isInf (x : F) : Bool := expField x == 255 && fracField x == 0

/-- A zero of either sign: `e = 0`, `m = 0` (R151). -/
def isZero (x : F) : Bool := expField x == 0 && fracField x == 0

/-- `isfinite` (R157): the exponent field is not 255. -/
def fpFinite (x : F) : Bool := expField x != 255

/-- The integer significand of a finite value, with the leading one of a normal number (R151). -/
def significand (x : F) : Nat := if expField x = 0 then fracField x else 2 ^ 23 + fracField x

/-- The magnitude of a finite value in units of `2^-150` (R151): `(1 + m/2^23) * 2^(e-127)` is
`(2^23 + m) * 2^e * 2^-150`, and a subnormal number counts as exponent 1. -/
def magnitude (x : F) : Nat := significand x * 2 ^ max (expField x) 1

/-- A finite value, in units of `2^-150`. -/
def scaledInt (x : F) : Int := if signBit x then -(magnitude x : Int) else magnitude x

/-- The pattern with this sign and these lower 31 bits. -/
def withSign (neg : Bool) (low : Nat) : F := BitVec.ofNat 32 (if neg then 2 ^ 31 + low else low)

/-- The lower 31 bits of an infinity. -/
def infLow : Nat := 0x7F800000

/-- The infinity of a sign (R151). -/
def infinity (neg : Bool) : F := withSign neg infLow

/-- The zero of a sign (R151). -/
def signedZero (neg : Bool) : F := withSign neg 0

/-- The quotient `a / b` rounded to the nearest whole number, a tie to the even one. -/
def roundNat (a b : Nat) : Nat :=
  let n := a / b
  let r := a % b
  if b < 2 * r ∨ (2 * r = b ∧ n % 2 = 1) then n + 1 else n

/-- The biased exponent `e ≥ 1` of the binade that `p / q` lies in: the least `e ≥ 1` with `p / q < 2^(e - 126)`. -/
def binade (p q : Nat) : Nat := Nat.log2 (p * 2 ^ 126 / q) + 1

/-- The real number `± p / q` rounded to nearest even (R152), with gradual underflow (R156) and overflow to an
infinity. In the binade with biased exponent `e` the spacing is `2^(e-150)`, and pattern `(e - 1) * 2^23 + n` is the
value `n * 2^(e-150)`; a carry out of the fraction moves into the exponent by itself. -/
def roundQuotient (neg : Bool) (p q : Nat) : F :=
  let e := binade p q
  if 255 ≤ e then infinity neg
  else
    let low := (e - 1) * 2 ^ 23 + roundNat (p * 2 ^ 150) (q * 2 ^ e)
    if infLow ≤ low then infinity neg else withSign neg low

/-- A NaN pattern: the given one if it is a NaN, else `0x7FC00000`. So a free `raw` ranges over exactly the NaNs. -/
def asNaN (raw : F) : F := if isNaN raw then raw else 0x7FC00000#32

/-- Negation (R150, R152): the sign flipped; of a NaN, a NaN (R155). -/
def fpNeg (nan : NanSite → F → F → F) (a : F) : F :=
  if isNaN a then asNaN (nan .neg a a) else a ^^^ 0x80000000#32

/-- Sum, rounded once (R152), with R155's infinities and R156's zeros. -/
def fpAdd (nan : NanSite → F → F → F) (a b : F) : F :=
  if isNaN a || isNaN b then asNaN (nan .add a b)
  else if isInf a then
    if isInf b && signBit a != signBit b then asNaN (nan .add a b) else a
  else if isInf b then b
  else
    let sum := scaledInt a + scaledInt b
    if sum = 0 then signedZero (signBit a && signBit b)
    else roundQuotient (decide (sum < 0)) sum.natAbs (2 ^ 150)

/-- Difference: `fsub(a, b) = fadd(a, fneg(b))` (R152, R156). -/
def fpSub (nan : NanSite → F → F → F) (a b : F) : F := fpAdd nan a (fpNeg nan b)

/-- Product, rounded once (R152); `0 * infinity` is a NaN (R155); the sign is the product of the signs (R156). -/
def fpMul (nan : NanSite → F → F → F) (a b : F) : F :=
  let neg := signBit a != signBit b
  if isNaN a || isNaN b then asNaN (nan .mul a b)
  else if isInf a || isInf b then
    if isZero a || isZero b then asNaN (nan .mul a b) else infinity neg
  else roundQuotient neg (magnitude a * magnitude b) (2 ^ 150 * 2 ^ 150)

/-- Quotient, rounded once (R152); `0 / 0` and `infinity / infinity` are NaNs, a nonzero value over a zero is an
infinity, a finite value over an infinity a zero, each with the product of the signs (R155). -/
def fpDiv (nan : NanSite → F → F → F) (a b : F) : F :=
  let neg := signBit a != signBit b
  if isNaN a || isNaN b then asNaN (nan .div a b)
  else if isInf a then
    if isInf b then asNaN (nan .div a b) else infinity neg
  else if isInf b then signedZero neg
  else if isZero b then
    if isZero a then asNaN (nan .div a b) else infinity neg
  else roundQuotient neg (magnitude a) (magnitude b)

/-- A function of a finite angle, continued by a NaN at the NaNs and infinities (R155). -/
def trig (nan : NanSite → F → F → F) (site : NanSite) (g : F → F) (x : F) : F :=
  if fpFinite x then g x else asNaN (nan site x x)

/-- `i2f` (R158): the value equal to the integer, rounded where it does not fit; 0 gives `+0.0`. -/
def fpOfInt (n : Int) : F := roundQuotient (decide (n < 0)) n.natAbs 1

/-- `ftrunc` (R150): the integer part toward zero of a finite value; nothing for a NaN or an infinity. -/
def fpTrunc (x : F) : Option Int :=
  if fpFinite x then some (scaledInt x |>.tdiv (2 ^ 150)) else none

/-- Where a value that is not a NaN stands in the order of the extended reals: patterns of one sign are ordered as
their lower 31 bits are, and both zeros stand at 0 (R157). -/
def orderKey (x : F) : Int :=
  if signBit x then -((x.toNat % 2 ^ 31 : Nat) : Int) else ((x.toNat % 2 ^ 31 : Nat) : Int)

/-- Ordered less-than (R157): false where an operand is a NaN. -/
def fpLt (a b : F) : Bool := !isNaN a && !isNaN b && decide (orderKey a < orderKey b)

/-- Ordered greater-than (R157). -/
def fpGt (a b : F) : Bool := fpLt b a

/-- The binary32 record (R150 to R158) with a given choice of NaN patterns, sine and cosine. The constants are those
of R153; `f32` is the identity on patterns (R151). -/
def binary32 (nan : NanSite → F → F → F) (sin cos : F → F) : Numerics where
  fadd := fpAdd nan
  fsub := fpSub nan
  fmul := fpMul nan
  fdiv := fpDiv nan
  fneg := fpNeg nan
  fsin := trig nan .sin sin
  fcos := trig nan .cos cos
  i2f := fpOfInt
  ftrunc := fpTrunc
  flt := fpLt
  fgt := fpGt
  isfinite := fpFinite
  zero := 0x00000000#32
  one := 0x3F800000#32
  two := 0x40000000#32
  twoPi := 0x40C90FDB#32
  f32 := id

/-- The numerics of this hardware (D6), with the open parts free (R154, R155; log 4, 5). -/
def hardwareNum : Numerics := binary32 Config.nanBits Config.sinBits Config.cosBits

/-- The function parameters of this hardware: its numerics and its open `QOVF` (R160; log 6). -/
def hardware : Impl := ⟨hardwareNum, Config.qovf⟩

end Sys2Proof.Machine
end

