-- ==== Sys2Proof/Machine/Operands.lean ====
section
/-! DEFINITION. The operand forms: the setter operand (spec/30 R84), the sample operand (R85), dequantisation
(spec/41 R125) and quantisation (R128; spec/42 R159, R160). -/

namespace Sys2Proof.Machine

/-- The setter operand `v = f32(cmd[31:0])`, with no conversion and no rounding (R84). -/
def setterOperand (nm : Numerics) (arg : BitVec 32) : F := nm.f32 arg

/-- `sint_16`: the cell read as two's complement (R13, R85). -/
def sampleInt (b : Cell) : Int := b.toInt

/-- `tc_16`: the cell that encodes an integer of the sample range (R13, R85). -/
def sampleCell (n : Int) : Cell := BitVec.ofInt 16 n

/-- Step 1 of SAMPLE: `in = raw * IN_SCALE` (R125). -/
def dequantise (nm : Numerics) (inScale : F) (b : Cell) : F := nm.fmul (nm.i2f (sampleInt b)) inScale

/-- `SMIN ≤ t ≤ SMAX`, the sample range (R13). -/
def inSampleRange (t : Int) : Bool := decide (-32768 ≤ t) && decide (t ≤ 32767)

/-- `Quant` (R159): the fraction discarded; outside the sample range, and for a NaN or an infinity, `QOVF` (R160). -/
def quantise (im : Impl) (y : F) : Cell :=
  if im.num.isfinite y then
    match im.num.ftrunc y with
    | some t => if inSampleRange t then sampleCell t else im.qovf y
    | none => im.qovf y
  else im.qovf y

end Sys2Proof.Machine
end

