-- ==== Sys2Proof/Machine/Flags.lean ====
section
/-! DEFINITION. Conditions. The hardware has no status flags (spec/10 R32); what an operation tests is a validity
predicate (spec/40 R101), and what it reports is the status of its own response (spec/30 R82, R83; spec/60 R180).
The constraints on the parameters (spec/00 R6) are written with the same predicates and stand here too. -/

namespace Sys2Proof.Machine

/-- `NYQ = fdiv(FS, TWO)` (R7). -/
def nyquist (nm : Numerics) (fs : F) : F := nm.fdiv fs nm.two

/-- `ValidF(v)` (R101). -/
def validF (nm : Numerics) (fs v : F) : Bool := nm.isfinite v && nm.fgt v nm.zero && nm.flt v (nyquist nm fs)

/-- `ValidQ(v)` (R101). -/
def validQ (nm : Numerics) (v : F) : Bool := nm.isfinite v && nm.fgt v nm.zero

/-- The error taxonomy (R180). -/
inductive ErrorKind where
  /-- A setter's operand is not valid (R181). -/
  | invalidParameter
  /-- One or both blocks are withheld (R182). -/
  | missingInput
  /-- A tick came while a call was in flight (R183). -/
  | deadlineMiss
  deriving DecidableEq, Repr

/-- The code numbers (R180); 0 is no error. -/
def ErrorKind.code : ErrorKind → Nat
  | .invalidParameter => 1
  | .missingInput => 2
  | .deadlineMiss => 3

/-- `st = 0`: the value was stored and the coefficients recomputed (R82). -/
def stOk : BitVec 1 := 0#1

/-- `st = 1`: InvalidParameter, nothing changed (R82). -/
def stInvalid : BitVec 1 := 1#1

/-- `done = 1`: PROCESSED, both blocks filtered in place (R83). -/
def doneProcessed : BitVec 1 := 1#1

/-- `done = 0`: SKIPPED, nothing consumed, nothing returned (R83). -/
def doneSkipped : BitVec 1 := 0#1

/-- The constraints on the parameters (R6): `N ≥ 1`; `FS`, `IN_SCALE`, `OUT_SCALE` finite and positive; the defaults
valid parameters. -/
def configValid (nm : Numerics) (c : Config) : Bool :=
  decide (1 ≤ c.N) && validQ nm c.FS && validQ nm c.inScale && validQ nm c.outScale
    && validF nm c.FS c.f0Default && validQ nm c.q0Default

/-- The parameters the hardware is built with: any record that meets R6's constraints, and nothing else is known of
it. `Config.raw` is taken where it is valid, so the value ranges over exactly the valid records (log 2). -/
def buildConfig : Config := if configValid hardwareNum Config.raw then Config.raw else Config.fixture

end Sys2Proof.Machine
end

