-- ==== Sys2Proof/Machine/Recomp.lean ====
section
/-! DEFINITION. RECOMP, the coefficient transform (spec/40 R104, R105). An internal micro-operation: SETF, SETQ and
RESET invoke it, and nothing else (R89). -/

namespace Sys2Proof.Machine

/-- `Recompute(f, q, fs)`, in the evaluation order of R105. It reads and writes no state (R104, R106). -/
def recompute (nm : Numerics) (f q fs : F) : CoefficientSet :=
  let wc := nm.fdiv (nm.fmul nm.twoPi f) fs
  let cw := nm.fcos wc
  let sw := nm.fsin wc
  let alpha := nm.fdiv sw (nm.fmul nm.two q)
  let t := nm.fadd nm.one cw
  let den1 := nm.fadd nm.one alpha
  let den2 := nm.fadd nm.two (nm.fmul nm.two alpha)
  { b0 := nm.fdiv t den2
    b1 := nm.fdiv (nm.fneg t) den1
    b2 := nm.fdiv t den2
    a1 := nm.fdiv (nm.fmul (nm.fneg nm.two) cw) den1
    a2 := nm.fdiv (nm.fsub nm.one alpha) den1 }

/-- The coefficient set after RESET: `Recompute(F0_DEFAULT, Q0_DEFAULT, FS)` (R34, R211). -/
def defaultCoefficients (nm : Numerics) (cfg : Config) : CoefficientSet :=
  recompute nm cfg.f0Default cfg.q0Default cfg.FS

end Sys2Proof.Machine
end

