-- ==== Sys2Proof/Machine/State.lean ====
section
/-! DEFINITION. The machine's state (spec/10 R20), the host's side of it (spec/00 R9 to R11, spec/30 R80), the state
after reset (spec/10 R34), and the reasons a step can stop (spec/00 R16). -/

namespace Sys2Proof.Machine

/-- `seq.phase` (R30). -/
inductive Phase where
  /-- No call in flight; the next tick may start one. -/
  | ready
  /-- Between PROC.BEGIN and PROC.END. -/
  | busy
  deriving DecidableEq, Repr

/-- The block sequencer (R30): while BUSY, the channel and index of the next SAMPLE; `(1, N)` when all are done. -/
structure Sequencer where
  phase : Phase
  c     : Channel
  i     : Nat
  deriving DecidableEq, Repr

/-- How a call that runs is carried out. Both are the spec's: PROC.RUN as one function (R131), or as the sequence of
its transitions with the control agent's falling between them (R10). The host's choice of interleaving (log 11). -/
inductive Pace where
  /-- The whole call in one step. -/
  | atomic
  /-- PROC.BEGIN in this step; SAMPLE and PROC.END in later ones. -/
  | stepwise
  deriving DecidableEq, Repr

/-- A word presented at a port, with the blocks it supplies. -/
structure Offer where
  frame  : Frame
  supply : Supply
  pace   : Pace
  deriving DecidableEq, Repr

/-- What the host does in one slot of the execution (R9, R10; log 12). -/
inductive Input where
  /-- Nothing: the hardware makes its own next transition, if it has one. -/
  | quiet
  /-- A word at one port alone, with the blocks it supplies. -/
  | word (frame : Frame) (supply : Supply) (pace : Pace)
  /-- Words at several ports at once (R186), in the order in which they are taken if no RESET is among them: the spec
  allows either order of a setter and a tick, and the list is the choice (log 20). -/
  | together (offers : List Offer)
  deriving DecidableEq, Repr

/-- What a port answers (R82, R83). RESET answers nothing (R211). -/
inductive Response where
  /-- `CTL-RSP`. -/
  | control (st : BitVec 1)
  /-- `AUD-RSP`: the status, and the two blocks where they are returned. -/
  | audio (done : BitVec 1) (returned : Option Memory)
  deriving DecidableEq, Repr

/-- The state (R20), and beside it the model's own fields. -/
structure State where
  /-- The instance's parameters (R6); written by nothing (log 2). -/
  cfg : Config
  /-- FilterParameters `P.f`, `P.q` (R21). -/
  P : FilterParameters
  /-- The active CoefficientSet (R23). -/
  C : CoefficientSet
  /-- The in-flight coefficient latch (R31). -/
  K : CoefficientSet
  /-- ChannelState of channel 0, `d[0][0..3]` (R26). -/
  d0 : ChannelState
  /-- ChannelState of channel 1, `d[1][0..3]` (R26). -/
  d1 : ChannelState
  /-- The block sequencer (R30). -/
  seq : Sequencer
  /-- The two block spaces (R29, R50): the host's, lent to the hardware while BUSY (R52). -/
  mem : Memory
  /-- The blocks as they were lent at PROC.BEGIN; read only by a RESET in flight (R212; log 10). -/
  lent : Memory
  /-- The host's events still to come, oldest first (R10; log 12). -/
  inputs : List Input
  /-- The responses given so far, newest first (R11; log 13). Read by nothing. -/
  outputs : List Response
  /-- The counter the free values are applied to; RESET steps it (log 9). -/
  free : Nat
  deriving DecidableEq, Repr

/-- Why the machine stops with a fault. -/
inductive Fault where
  /-- A tick while a call is in flight (R183, R217). Raised by PROC.RUN and PROC.SKIP while BUSY. Safe: nothing can be
  proved of what follows. -/
  | deadlineMiss
  /-- The sequencer stands at an index that no block has (R53, R60). Raised by the sequencer's own transition, only from
  positions outside R30's, which no run reaches. Safe. -/
  | noSuchCell
  deriving DecidableEq, Repr

/-- Why a step is refused. -/
inductive Refusal where
  /-- The operation has no meaning yet. Raised by exec's arms only; no arm raises it. Safe. -/
  | notModelled (mnemonic : String)
  /-- The word is not one its port can carry: wrong width, or bits above it (R88). Raised by step. Safe. -/
  | notAWord
  /-- Two words at one port at once (R66, R220, U12; log 27). Raised by step. Safe. -/
  | portTakenTwice
  /-- The blocks do not fit the header: one of another length, one without its flag, or a flag without one (R56, R83,
  U15). Raised by step. Safe. -/
  | notPresentable
  deriving DecidableEq, Repr

/-- Four zeros (`ZERO`, R26, R34). -/
def zeroDelays (nm : Numerics) : ChannelState := ⟨nm.zero, nm.zero, nm.zero, nm.zero⟩

/-- No cell listed in either block space. -/
def emptyMemory : Memory := ⟨[], []⟩

/-- The machine right after reset (R34). `K`, `seq.c`, `seq.i` are unspecified there; the values are the model's (log
8). -/
def State.reset : State where
  cfg := buildConfig
  P := ⟨buildConfig.f0Default, buildConfig.q0Default⟩
  C := defaultCoefficients hardwareNum buildConfig
  K := ⟨0#32, 0#32, 0#32, 0#32, 0#32⟩
  d0 := zeroDelays hardwareNum
  d1 := zeroDelays hardwareNum
  seq := ⟨.ready, .ch0, 0⟩
  mem := emptyMemory
  lent := emptyMemory
  inputs := []
  outputs := []
  free := 0

end Sys2Proof.Machine
end

