-- ==== Sys2Proof/Machine/Ops.lean ====
section
/-! DEFINITION. The named operations over memory and registers: reading and writing a cell (spec/20 R53), the delay
registers (spec/10 R26), answering and raising (spec/60 R180, R187), the commit of a parameter change (spec/40 R100),
and what the host does between transitions (spec/20 R52, R72). -/

namespace Sys2Proof.Machine

/-- The cell at an index of a block; an index that is not listed holds `0x0000` (log 1). -/
def blockRead : Block → Nat → Cell
  | [], _ => 0#16
  | (a, v) :: rest, i => if a = i then v else blockRead rest i

/-- The block with one cell replaced, in canonical form: a zero cell is not listed. -/
def blockWrite : Block → Nat → Cell → Block
  | [], i, v => if v = 0#16 then [] else [(i, v)]
  | (a, w) :: rest, i, v =>
    if i < a then (if v = 0#16 then (a, w) :: rest else (i, v) :: (a, w) :: rest)
    else if i = a then (if v = 0#16 then rest else (i, v) :: rest)
    else (a, w) :: blockWrite rest i v

/-- The canonical block that holds `g lo`, …, at `k` indices from `lo` on. -/
def blockFrom (g : Nat → Cell) : Nat → Nat → Block
  | _, 0 => []
  | lo, k + 1 => if g lo = 0#16 then blockFrom g (lo + 1) k else (lo, g lo) :: blockFrom g (lo + 1) k

/-- The `n` cells of a block in index order (R50). -/
def blockCells (n : Nat) (b : Block) : List Cell := (List.range n).map (blockRead b)

/-- The block of one channel. -/
def memBlock (m : Memory) : Channel → Block
  | .ch0 => m.b0
  | .ch1 => m.b1

/-- `MemRead((c, i), 1)` (R53). -/
def memRead (m : Memory) (c : Channel) (i : Nat) : Cell := blockRead (memBlock m c) i

/-- `MemWrite((c, i), 1, v)` (R53). -/
def memWrite (m : Memory) (c : Channel) (i : Nat) (v : Cell) : Memory :=
  match c with
  | .ch0 => { m with b0 := blockWrite m.b0 i v }
  | .ch1 => { m with b1 := blockWrite m.b1 i v }

/-- The delay registers of a channel, `d[c][*]` (R15, R26). -/
def delays (s : State) : Channel → ChannelState
  | .ch0 => s.d0
  | .ch1 => s.d1

/-- The write of a channel's delay registers (R15). -/
def setDelays (s : State) (c : Channel) (x : ChannelState) : State :=
  match c with
  | .ch0 => { s with d0 := x }
  | .ch1 => { s with d1 := x }

/-- The answer of a port (R15 `respond`, R82, R83). It is latched nowhere (R32): `outputs` is what the host has seen. -/
def respond (r : Response) (s : State) : State := { s with outputs := r :: s.outputs }

/-- What the port answers when an operation ends in an error (R180); a DeadlineMiss is not reported (R183). -/
def errorResponse : ErrorKind → Option Response
  | .invalidParameter => some (.control stInvalid)
  | .missingInput => some (.audio doneSkipped none)
  | .deadlineMiss => none

/-- `raise X` (R15, R187): the operation ends at once, nothing it would have written is written, and its response
carries the error. There is no trap entry: nothing is saved, no mode changes, control goes nowhere; so there is no
return either (R188). -/
def raise (e : ErrorKind) (s : State) : State :=
  match errorResponse e with
  | some r => respond r s
  | none => s

/-- Store the parameters and replace all five coefficients in one transition (R24, R62, R102, R103). -/
def commit (nm : Numerics) (p : FilterParameters) (s : State) : State :=
  { s with P := p, C := recompute nm p.f p.q s.cfg.FS }

/-- One setter (R100, R102, R103): reject before any write (R110), or store, recompute and answer OK. -/
def setter (nm : Numerics) (valid : Bool) (p : FilterParameters) (s : State) : State :=
  if valid then respond (.control stOk) (commit nm p s) else raise .invalidParameter s

/-- The remaining events after one is taken. -/
def takeInput (rest : List Input) (s : State) : State := { s with inputs := rest }

/-- One block space after the host has put its supplied block there, if it supplies one. -/
def placePart : Option Block → Block → Block
  | none, old => old
  | some b, _ => b

/-- The host puts the blocks it supplies into the block spaces (R52, R83). It owns them: a tick comes while READY, or
it is a DeadlineMiss. -/
def place (p : Supply) (s : State) : State :=
  { s with mem := ⟨placePart p.b0 s.mem.b0, placePart p.b1 s.mem.b1⟩ }

end Sys2Proof.Machine
end

