-- ==== Sys2Proof/Machine/BlockProcessor.lean ====
section
/-! DEFINITION. The Block Processor (spec/41): PROC.BEGIN, SAMPLE, PROC.END and the block transaction made of them,
run or skipped. -/

namespace Sys2Proof.Machine

/-- Step 2 of SAMPLE, the recursion `(((b0*in + b1*d0) + b2*d1) - a1*d2) - a2*d3`, each operator rounded once (R126). -/
def recursion (nm : Numerics) (k : CoefficientSet) (x : F) (d : ChannelState) : F :=
  nm.fsub (nm.fsub (nm.fadd (nm.fadd (nm.fmul k.b0 x) (nm.fmul k.b1 d.d0)) (nm.fmul k.b2 d.d1)) (nm.fmul k.a1 d.d2))
    (nm.fmul k.a2 d.d3)

/-- Step 3 of SAMPLE, the shift `d1←d0; d0←in; d3←d2; d2←out` (R127). -/
def shiftDelays (d : ChannelState) (x out : F) : ChannelState := ⟨x, d.d0, out, d.d2⟩

/-- `Step(k, s, x)` of R131: the four parts of SAMPLE on one channel state and one cell (R124 to R128). -/
def filterStep (im : Impl) (cfg : Config) (k : CoefficientSet) (d : ChannelState) (cell : Cell) : ChannelState × Cell :=
  let x := dequantise im.num cfg.inScale cell
  let out := recursion im.num k x d
  (shiftDelays d x out, quantise im (im.num.fmul out cfg.outScale))

/-- `Run(k, s, xs)` of R131. -/
def filterRun (im : Impl) (cfg : Config) (k : CoefficientSet) (d : ChannelState) : List Cell → ChannelState × List Cell
  | [] => (d, [])
  | x :: xs =>
    let r := filterStep im cfg k d x
    let rest := filterRun im cfg k r.1 xs
    (rest.1, r.2 :: rest.2)

/-- SAMPLE(c, i) but for the sequencer's advance (R124): coefficients from `K`, the cell read once, then written
once. -/
def sampleAt (im : Impl) (c : Channel) (i : Nat) (s : State) : State :=
  let r := filterStep im s.cfg s.K (delays s c) (memRead s.mem c i)
  { setDelays s c r.1 with mem := memWrite s.mem c i r.2 }

/-- The sequencer after SAMPLE(c, i): the reference order, channel 0 complete, then channel 1 (R129; log 16). -/
def nextPosition (n : Nat) (q : Sequencer) : Sequencer :=
  if q.i + 1 < n then ⟨.busy, q.c, q.i + 1⟩
  else
    match q.c with
    | .ch0 => ⟨.busy, .ch1, 0⟩
    | .ch1 => ⟨.busy, .ch1, n⟩

/-- SAMPLE, one atomic transition (R124). -/
def sampleStep (im : Impl) (s : State) : State :=
  { sampleAt im s.seq.c s.seq.i s with seq := nextPosition s.cfg.N s.seq }

/-- `k` SAMPLE transitions. -/
def sampleSteps (im : Impl) : Nat → State → State
  | 0, s => s
  | k + 1, s => sampleSteps im k (sampleStep im s)

/-- PROC.BEGIN (R123): all five coefficients at once into the latch; the loan of both blocks begins (R52). -/
def procBegin (s : State) : State :=
  { s with K := s.C, seq := ⟨.busy, .ch0, 0⟩, lent := s.mem }

/-- PROC.END (R130): READY, PROCESSED, both blocks back to the host. -/
def procEnd (s : State) : State :=
  respond (.audio doneProcessed (some s.mem)) { s with seq := { s.seq with phase := .ready }, lent := emptyMemory }

/-- PROC with both blocks supplied: BEGIN, the `2*N` SAMPLE transitions, END (R121). -/
def procCall (im : Impl) (s : State) : State :=
  procEnd (sampleSteps im (2 * s.cfg.N) (procBegin s))

/-- `require seq.phase = READY` (R121, R138): a tick while BUSY is the DeadlineMiss of R183. -/
def whenReady (f : State → State) (s : State) : Host.Outcome State Fault Refusal :=
  match s.seq.phase with
  | .ready => .next (f s)
  | .busy => .fault .deadlineMiss

/-- The sequencer's own transition while BUSY: PROC.END at `(1, N)` (R130), else SAMPLE (R124). An index no block has
is outside R30's positions and stops (log 15). -/
def sequencerMove (im : Impl) (s : State) : Host.Outcome State Fault Refusal :=
  if s.seq.c = .ch1 ∧ s.seq.i = s.cfg.N then .next (procEnd s)
  else if s.seq.i < s.cfg.N then .next (sampleStep im s)
  else .fault .noSuchCell

/-- What the hardware does when the host does nothing: its sequencer's transition while BUSY, nothing while READY
(R193). -/
def ownMove (im : Impl) (s : State) : Host.Outcome State Fault Refusal :=
  match s.seq.phase with
  | .ready => .next s
  | .busy => sequencerMove im s

/-- PROC.RUN (R121). -/
def execProcRun (s : State) : Host.Outcome State Fault Refusal := whenReady (procCall hardware) s

/-- The first transition of a PROC.RUN whose transitions are taken one by one (R10, R123; log 11). -/
def beginProcRun (s : State) : Host.Outcome State Fault Refusal := whenReady procBegin s

/-- PROC.SKIP.B, both blocks withheld (R122). -/
def execProcSkipB (s : State) : Host.Outcome State Fault Refusal := whenReady (raise .missingInput) s

/-- PROC.SKIP.0, block 0 withheld (R122). -/
def execProcSkip0 (s : State) : Host.Outcome State Fault Refusal := whenReady (raise .missingInput) s

/-- PROC.SKIP.1, block 1 withheld (R122). -/
def execProcSkip1 (s : State) : Host.Outcome State Fault Refusal := whenReady (raise .missingInput) s

end Sys2Proof.Machine
end

