-- ==== Sys2Proof/Machine/CoefficientEngine.lean ====
section
/-! DEFINITION. The Coefficient Engine: SETF and SETQ (spec/40 R102, R103). Each is accepted or rejected on its operand
alone, whether or not a call is in flight (spec/20 R65), and never touches `K`, the delay registers, `seq` or memory. -/

namespace Sys2Proof.Machine

/-- SETF with a given numerics (R102). -/
def setf (nm : Numerics) (v : F) (s : State) : State :=
  setter nm (validF nm s.cfg.FS v) { s.P with f := v } s

/-- SETQ with a given numerics (R103). -/
def setq (nm : Numerics) (v : F) (s : State) : State :=
  setter nm (validQ nm v) { s.P with q := v } s

/-- SETF, `setCenterFrequency` (R102). -/
def execSetf (arg : BitVec 32) (s : State) : Host.Outcome State Fault Refusal :=
  .next (setf hardwareNum (setterOperand hardwareNum arg) s)

/-- SETQ, `setQualityFactor` (R103). -/
def execSetq (arg : BitVec 32) (s : State) : Host.Outcome State Fault Refusal :=
  .next (setq hardwareNum (setterOperand hardwareNum arg) s)

end Sys2Proof.Machine
end

