-- ==== Sys2Proof/Machine/Reset.lean ====
section
/-! DEFINITION. RESET (spec/70 R210 to R213), accepted in any state. -/

namespace Sys2Proof.Machine

/-- How many SAMPLE transitions the call in flight still has to make in the reference order (R129). -/
def samplesLeft (s : State) : Nat :=
  match s.seq.c with
  | .ch0 => (s.cfg.N - s.seq.i) + s.cfg.N
  | .ch1 => s.cfg.N - s.seq.i

/-- One block abandoned by RESET: each cell holds its input value or its filtered value, a free choice per cell (R212,
U10; log 10). -/
def abandonedBlock (free n : Nat) (c : Channel) (input filtered : Block) : Block :=
  blockFrom (fun i => if Config.keepsInput free c i then blockRead input i else blockRead filtered i) 0 n

/-- The two block spaces after RESET: untouched while READY (R36), abandoned while BUSY (R212). The filtered value of a
cell is what the call would have left there. -/
def memoryAfterReset (im : Impl) (s : State) : Memory :=
  match s.seq.phase with
  | .ready => s.mem
  | .busy =>
    let filtered := (sampleSteps im (samplesLeft s) s).mem
    ⟨abandonedBlock s.free s.cfg.N .ch0 s.lent.b0 filtered.b0, abandonedBlock s.free s.cfg.N .ch1 s.lent.b1 filtered.b1⟩

/-- RESET with given function parameters (R211). `K`, `seq.c` and `seq.i` are left unspecified: free values (log 9). -/
def resetMachine (im : Impl) (s : State) : State :=
  { s with
    P := ⟨s.cfg.f0Default, s.cfg.q0Default⟩
    C := defaultCoefficients im.num s.cfg
    K := Config.freeLatch s.free
    d0 := zeroDelays im.num
    d1 := zeroDelays im.num
    seq := ⟨.ready, Config.freeChannel s.free, Config.freeIndex s.free % (s.cfg.N + 1)⟩
    mem := memoryAfterReset im s
    lent := emptyMemory
    free := s.free + 1 }

/-- RESET (R211, R212). It answers nothing. -/
def execReset (s : State) : Host.Outcome State Fault Refusal := .next (resetMachine hardware s)

end Sys2Proof.Machine
end

