-- ==== Sys2Proof/Machine/Dispatch.lean ====
section
/-! DEFINITION. One arm per operation (spec/30 R86). -/

namespace Sys2Proof.Machine

def exec (i : Instr) (s : State) : Host.Outcome State Fault Refusal :=
  match i with
  | .setf v => Sys2Proof.Machine.execSetf v s
  | .setq v => Sys2Proof.Machine.execSetq v s
  | .procRun => Sys2Proof.Machine.execProcRun s
  | .procSkipB => Sys2Proof.Machine.execProcSkipB s
  | .procSkip0 => Sys2Proof.Machine.execProcSkip0 s
  | .procSkip1 => Sys2Proof.Machine.execProcSkip1 s
  | .reset => Sys2Proof.Machine.execReset s

end Sys2Proof.Machine
end

