-- ==== Sys2Proof/Machine/Ports.lean ====
section
/-! DEFINITION. Arbitration between the ports (spec/60 R186, spec/70 R212): which word is taken next, and what the host
still presents after it. -/

namespace Sys2Proof.Machine

/-- The word presented at its port alone. -/
def Offer.input (o : Offer) : Input := .word o.frame o.supply o.pace

/-- Whether the word asks for RESET. -/
def Offer.asksReset (o : Offer) : Bool :=
  match decode o.frame with
  | .ok i => i == .reset
  | .error _ => false

/-- No port is given two words at once (R66, R220). -/
def portsDistinct (offers : List Offer) : Bool := decide (offers.map (·.frame.port)).Nodup

/-- The words that are taken, in order: RESET alone where it is among them, for it overrides both ports and nothing is
held pending (R185, R186, R212; log 20); else all, in the order listed. -/
def arbitrate (offers : List Offer) : List Offer :=
  match offers.find? Offer.asksReset with
  | some o => [o]
  | none => offers

/-- What the next slot holds. -/
inductive Slot where
  /-- No word; `rest` is what follows. -/
  | nothing (rest : List Input)
  /-- A word to be taken now; `rest` is what follows. -/
  | offered (o : Offer) (rest : List Input)
  /-- Two words at one port. -/
  | twice
  deriving DecidableEq, Repr

/-- The slot of words presented together: the first that is taken, then the others, one by one (R186). -/
def togetherSlot (offers : List Offer) (rest : List Input) : Slot :=
  if portsDistinct offers then
    match arbitrate offers with
    | [] => .nothing rest
    | o :: more => .offered o (more.map Offer.input ++ rest)
  else .twice

/-- The next slot of the host's events; with none left, nothing is presented. -/
def nextSlot : List Input → Slot
  | [] => .nothing []
  | .quiet :: rest => .nothing rest
  | .word frame supply pace :: rest => .offered ⟨frame, supply, pace⟩ rest
  | .together offers :: rest => togetherSlot offers rest

end Sys2Proof.Machine
end

