-- ==== Sys2Proof/Machine/Issue.lean ====
section
/-! DEFINITION. Taking a word: from a presented word to its operation (spec/30 R86, spec/00 R10). -/

namespace Sys2Proof.Machine

/-- The operation of a word that its port carries, with the blocks it supplies in place. A call whose transitions are
taken one by one begins here; everything else is done whole (log 11). -/
def issue (pace : Pace) (i : Instr) (s : State) : Host.Outcome State Fault Refusal :=
  if pace = .stepwise ∧ i = .procRun then beginProcRun s else exec i s

/-- A word is taken. A word its port cannot carry, or blocks that do not fit its header, cannot be presented (R56, R88;
log 21). The reset input at 0 asks for nothing (log 19). -/
def takeOffer (o : Offer) (s : State) : Host.Outcome State Fault Refusal :=
  match decode o.frame with
  | .ok i => if o.supply.wf s.cfg.N i then issue o.pace i (place o.supply s) else .refused .notPresentable
  | .error .noRequest => ownMove hardware s
  | .error .wrongWidth => .refused .notAWord
  | .error .bitsAboveWidth => .refused .notAWord

/-- The blocks a word's header announces, taken as they stand in the block spaces. -/
def standingSupply (i : Instr) (m : Memory) : Supply :=
  ⟨if i.avail.1 then some m.b0 else none, if i.avail.2 then some m.b1 else none⟩

end Sys2Proof.Machine
end

