-- ==== Sys2Proof/Machine/Step.lean ====
section
/-! DEFINITION. One step is one atomic transition (spec/00 R10): the host's next event, or the hardware's own move. -/

namespace Sys2Proof.Machine

/-- One atomic transition. Where the next slot holds no word, the hardware makes its own move (log 12). -/
def step (s : State) : Host.Outcome State Fault Refusal :=
  match nextSlot s.inputs with
  | .nothing rest => ownMove hardware (takeInput rest s)
  | .offered o rest => takeOffer o (takeInput rest s)
  | .twice => .refused .portTakenTwice

/-- The word put in front of the events still to come: the next step takes it, whole, on the blocks that stand in the
block spaces (log 18). -/
def State.withFetchWord (s : State) (nbits w : Nat) : State :=
  let frame := tableFrame nbits w
  let supply : Supply :=
    match decode frame with
    | .ok i => standingSupply i s.mem
    | .error _ => ⟨none, none⟩
  { s with inputs := .word frame supply .atomic :: s.inputs }

end Sys2Proof.Machine
end

