-- ==== Sys2Proof/Safety.lean ====
section
/-! DEFINITION. What counts as a good state and a good run, and the other terms the statements use. -/

namespace Sys2Proof.Machine

/-- The sequencer stands at a position of R30: while BUSY at a pending SAMPLE or at `(1, N)`; while READY its position
means nothing but stays within `0 … N`. -/
def Sequencer.Legal (n : Nat) (q : Sequencer) : Prop :=
  match q.phase with
  | .ready => q.i ≤ n
  | .busy => q.i < n ∨ (q.c = .ch1 ∧ q.i = n)

/-- The five coefficients come from valid parameters (R111). -/
def FromValidParameters (fs : F) (k : CoefficientSet) : Prop :=
  ∃ f q, validF hardwareNum fs f = true ∧ validQ hardwareNum q = true ∧ k = recompute hardwareNum f q fs

/-- The invariant of the machine: what R6, R21, R25, R30, R31, R50 and R111 say of every state that a run reaches. -/
structure Inv (s : State) : Prop where
  /-- The parameters meet their constraints (R6). -/
  config : configValid hardwareNum s.cfg = true
  /-- `P.f` is positive, finite and below Nyquist (R21). -/
  frequency : validF hardwareNum s.cfg.FS s.P.f = true
  /-- `P.q` is positive and finite (R21). -/
  quality : validQ hardwareNum s.P.q = true
  /-- `C = Recompute(P.f, P.q, FS)` (R25). -/
  coefficients : s.C = recompute hardwareNum s.P.f s.P.q s.cfg.FS
  /-- A block in flight is filtered with a set that valid parameters gave (R31, R111). -/
  latch : s.seq.phase = .busy → FromValidParameters s.cfg.FS s.K
  /-- The sequencer's position is one of R30's. -/
  position : s.seq.Legal s.cfg.N
  /-- The block spaces hold `N` cells each, in canonical form (R50). -/
  memory : Memory.wf s.cfg.N s.mem = true
  /-- So do the blocks as they were lent. -/
  lent : Memory.wf s.cfg.N s.lent = true

/-- The operation a presented word asks for, if it asks for one. -/
def Offer.operation (o : Offer) : Option Instr :=
  match decode o.frame with
  | .ok i => some i
  | .error _ => none

/-- The operation that the next slot's word asks for. -/
def nextOperation (s : State) : Option Instr :=
  match nextSlot s.inputs with
  | .nothing _ => none
  | .offered o _ => o.operation
  | .twice => none

/-- The block transactions (R121, R122): what a tick can be. -/
def isTick : Instr → Bool
  | .setf _ => false
  | .setq _ => false
  | .procRun => true
  | .procSkipB => true
  | .procSkip0 => true
  | .procSkip1 => true
  | .reset => false

/-- The setters (R102, R103). -/
def isSetter : Instr → Bool
  | .setf _ => true
  | .setq _ => true
  | .procRun => false
  | .procSkipB => false
  | .procSkip0 => false
  | .procSkip1 => false
  | .reset => false

/-- A tick is next while a call is in flight: the breach of R217 that R183 calls DeadlineMiss. -/
def TickWhileBusy (s : State) : Prop :=
  s.seq.phase = .busy ∧ ∃ i, nextOperation s = some i ∧ isTick i = true

/-- The states a run reaches from reset, whatever the host does: the event list is the host's (log 12). -/
inductive Reachable : State → Prop where
  | reset (events : List Input) : Reachable { State.reset with inputs := events }
  | step {s t : State} : Reachable s → step s = .next t → Reachable t

/-- `k` steps, stopping at the first fault or refusal. -/
def runSteps : Nat → State → Host.Outcome State Fault Refusal
  | 0, s => .next s
  | k + 1, s =>
    match step s with
    | .next t => runSteps k t
    | .fault r => .fault r
    | .refused r => .refused r

/-- The SAMPLE transitions of one call in the order of the channels listed, each channel's indices ascending from `i` and
`j` (R73, R129). -/
def samplesInOrder (im : Impl) : List Channel → Nat → Nat → State → State
  | [], _, _, s => s
  | .ch0 :: order, i, j, s => samplesInOrder im order (i + 1) j (sampleAt im .ch0 i s)
  | .ch1 :: order, i, j, s => samplesInOrder im order i (j + 1) (sampleAt im .ch1 j s)

/-- An event the control agent may put between the transitions of a call: a quiet slot, or a setter's word (R10). -/
def BesideCall (n : Nat) (event : Input) : Prop :=
  event = .quiet ∨
    ∃ frame p pace i, event = .word frame p pace ∧ decode frame = .ok i ∧ isSetter i = true ∧ Supply.wf n i p = true

/-- The integer part of a real number, rounded toward zero (R150, R159). -/
def truncReal (x : ℚ) : ℤ := if 0 ≤ x then ⌊x⌋ else ⌈x⌉

/-- The real number a finite binary32 pattern stands for, written as R151 writes it. -/
def realValue (x : F) : ℚ :=
  let sign : ℚ := if x.getLsbD 31 then -1 else 1
  let e : ℤ := (x.extractLsb' 23 8).toNat
  let m : ℚ := (x.extractLsb' 0 23).toNat
  if e = 0 then sign * 2 ^ (-126 : ℤ) * (m / 2 ^ 23) else sign * 2 ^ (e - 127) * (1 + m / 2 ^ 23)

/-- `r` is the correctly rounded binary32 result of the real number `x` (R152): the nearest finite value, the one with
an even fraction where two are nearest; an infinity of the sign of `x` where the rounded magnitude would exceed the
largest finite value (from `2^128 - 2^103` on). -/
def RoundsTo (x : ℚ) (r : F) : Prop :=
  if |x| < 2 ^ 128 - 2 ^ 103 then
    fpFinite r = true ∧
      ∀ z : F, fpFinite z = true → realValue z ≠ realValue r →
        |x - realValue r| < |x - realValue z| ∨ (|x - realValue r| = |x - realValue z| ∧ r.getLsbD 0 = false)
  else r = infinity (decide (x < 0))

/-- An answer of the audio port. -/
def Response.isAudio : Response → Bool
  | .control _ => false
  | .audio _ _ => true

/-- All five coefficients are finite (R135). -/
def FiniteSet (k : CoefficientSet) : Prop :=
  fpFinite k.b0 = true ∧ fpFinite k.b1 = true ∧ fpFinite k.b2 = true ∧ fpFinite k.a1 = true ∧ fpFinite k.a2 = true

/-- All four delay registers hold a zero, of either sign (R135). -/
def ZeroState (d : ChannelState) : Prop :=
  isZero d.d0 = true ∧ isZero d.d1 = true ∧ isZero d.d2 = true ∧ isZero d.d3 = true

end Sys2Proof.Machine
end

