-- ==== Sys2Proof/Certificates/Slice0/Obligations.lean ====
section
/-! DEFINITION. What is stated about the machine, for the provers. Each docstring names the rules it formalises. -/

open Sys2Proof Sys2Proof.Machine

/-! ### Encoding -/

/-- R81, R83, R86: a frame decodes to an operation exactly if it is that operation's word, every operand at every
value. -/
def Obligations.DecodeAndEncodeAgree : Prop :=
  ∀ (frame : Frame) (i : Instr), decode frame = .ok i ↔ frame = encode i

/-- V-ENC of spec/95: words written out from R81, R83, R86. -/
def Obligations.WrittenWordsDecode : Prop :=
  decode ⟨.ctl, 33, 0x0447A0000⟩ = .ok (.setf 0x447A0000#32) ∧ decode ⟨.ctl, 33, 0x13F000000⟩ = .ok (.setq 0x3F000000#32) ∧
  decode ⟨.aud, 2, 0b11⟩ = .ok .procRun ∧ decode ⟨.aud, 2, 0b00⟩ = .ok .procSkipB ∧
  decode ⟨.aud, 2, 0b10⟩ = .ok .procSkip0 ∧ decode ⟨.aud, 2, 0b01⟩ = .ok .procSkip1 ∧ decode ⟨.rst, 1, 1⟩ = .ok .reset

/-- R87, first two sentences: no command word and no header is reserved or illegal. -/
def Obligations.EveryWordSelectsAnOperation : Prop :=
  (∀ cmd : BitVec 33, ∃ v, decode ⟨.ctl, 33, cmd.toNat⟩ = .ok (.setf v) ∨ decode ⟨.ctl, 33, cmd.toNat⟩ = .ok (.setq v)) ∧
  (∀ hdr : BitVec 2, ∃ i, decode ⟨.aud, 2, hdr.toNat⟩ = .ok i ∧ isTick i = true)

/-! ### Steps -/

/-- R10, R86: a word at the front of the events is taken off, the blocks it supplies are put in place, and its operation
runs: whole, or, for a PROC.RUN taken transition by transition, its PROC.BEGIN. -/
def Obligations.StepRunsTheDecodedWord : Prop :=
  ∀ (s : State) (frame : Frame) (p : Supply) (pace : Pace) (rest : List Input) (i : Instr),
    s.inputs = .word frame p pace :: rest → decode frame = .ok i → Supply.wf s.cfg.N i p = true →
    let s' : State := { s with inputs := rest, mem := ⟨p.b0.getD s.mem.b0, p.b1.getD s.mem.b1⟩ }
    (pace = .atomic ∨ i ≠ .procRun → step s = exec i s') ∧
    (pace = .stepwise ∧ i = .procRun → step s = beginProcRun s')

/-- Log 18: a table word placed by `withFetchWord` runs as its operation on the very state it was placed in. -/
def Obligations.PlacedWordRunsNext : Prop :=
  ∀ (s : State) (nbits w : Nat) (i : Instr), decodeTableWord nbits w = some i → Memory.wf s.cfg.N s.mem = true →
    step (s.withFetchWord nbits w) = exec i s

/-- R186, R212: RESET presented together with words at the other ports overrides them: the step is RESET, wherever it
stands among them and whatever the state. That the overridden words have no effect later either is read from R185
(log 20, DEDUCED). -/
def Obligations.ResetOverridesBothPorts : Prop :=
  ∀ (s : State) (offers : List Offer) (rest : List Input),
    s.inputs = .together offers :: rest → (offers.map (·.frame.port)).Nodup →
    (∃ o ∈ offers, decode o.frame = .ok .reset ∧ o.supply = ⟨none, none⟩) →
    step s = exec .reset { s with inputs := rest }

/-- R62, R186: words presented together, no RESET among them, are consecutive transitions in the order listed; the host's
list may be either order (log 20). -/
def Obligations.WordsTogetherAreTakenInTurn : Prop :=
  ∀ (s : State) (offers : List Offer) (rest : List Input),
    s.inputs = .together offers :: rest → (offers.map (·.frame.port)).Nodup → offers ≠ [] →
    (∀ o ∈ offers, decode o.frame ≠ .ok .reset) →
    step s = step { s with inputs := offers.map Offer.input ++ rest }

/-- R193: while READY, and with nothing asked for, the hardware is idle and all its state survives. -/
def Obligations.IdleKeepsAllState : Prop :=
  ∀ s : State, s.seq.phase = .ready →
    (s.inputs = [] → step s = .next s) ∧
    (∀ rest, s.inputs = .quiet :: rest → step s = .next { s with inputs := rest })

/-! ### The Coefficient Engine -/

/-- R102, R110, R181: SETF stores and recomputes in one transition and answers OK, or answers InvalidParameter and
changes nothing. Everything not named is unchanged. -/
def Obligations.SetfCommitsOrRejects : Prop :=
  ∀ (v : BitVec 32) (s : State),
    exec (.setf v) s = .next
      (if validF hardwareNum s.cfg.FS v then
        { s with P := ⟨v, s.P.q⟩, C := recompute hardwareNum v s.P.q s.cfg.FS, outputs := .control 0#1 :: s.outputs }
      else { s with outputs := .control 1#1 :: s.outputs })

/-- R103, R110, R181: the same of SETQ. -/
def Obligations.SetqCommitsOrRejects : Prop :=
  ∀ (v : BitVec 32) (s : State),
    exec (.setq v) s = .next
      (if validQ hardwareNum v then
        { s with P := ⟨s.P.f, v⟩, C := recompute hardwareNum s.P.f v s.cfg.FS, outputs := .control 0#1 :: s.outputs }
      else { s with outputs := .control 1#1 :: s.outputs })

/-- R101: a frequency is valid if it is finite, positive and below Nyquist, a quality factor if it is finite and
positive, as real numbers; so no NaN, infinity, zero or negative number is valid. -/
def Obligations.ValidityIsPositiveFiniteBelowNyquist : Prop :=
  ∀ fs v : F, validQ hardwareNum fs = true →
    (validF hardwareNum fs v = true ↔
      fpFinite v = true ∧ 0 < realValue v ∧ realValue v < realValue (nyquist hardwareNum fs)) ∧
    (validQ hardwareNum v = true ↔ fpFinite v = true ∧ 0 < realValue v)

/-- R7: `NYQ` is the real number `FS/2`, where the division does not underflow. -/
def Obligations.NyquistIsHalfTheRate : Prop :=
  ∀ fs : F, fpFinite fs = true → 2 ≤ expField fs → realValue (nyquist hardwareNum fs) = realValue fs / 2

/-- R104, R105: the five formulas, in the spec's order of evaluation. -/
def Obligations.RecomputeFollowsTheFormulas : Prop :=
  ∀ f q fs : F,
    let n := hardwareNum
    let wc := n.fdiv (n.fmul 0x40C90FDB#32 f) fs
    let alpha := n.fdiv (n.fsin wc) (n.fmul 0x40000000#32 q)
    let t := n.fadd 0x3F800000#32 (n.fcos wc)
    let den1 := n.fadd 0x3F800000#32 alpha
    let den2 := n.fadd 0x40000000#32 (n.fmul 0x40000000#32 alpha)
    recompute n f q fs =
      ⟨n.fdiv t den2, n.fdiv (n.fneg t) den1, n.fdiv t den2,
        n.fdiv (n.fmul (n.fneg 0x40000000#32) (n.fcos wc)) den1, n.fdiv (n.fsub 0x3F800000#32 alpha) den1⟩

/-- R109, cases (a) to (e): the degenerate sets that validation lets through, for every sine and cosine that agree with
TESTNUM-CR at the one angle concerned, and for every choice of NaN patterns. -/
def Obligations.DegenerateSetsAreComputed : Prop :=
  ∀ (nan : NanSite → F → F → F) (sin cos : F → F),
    let n := binary32 nan sin cos
    (sin 0x3E060A92#32 = 0x3E05A8A9#32 → cos 0x3E060A92#32 = 0x3F7DCF55#32 →
      (∃ x, isNaN x = true ∧ recompute n 0x447A0000#32 0x00000001#32 0x473B8000#32 =
        ⟨0x00000000#32, 0x80000000#32, 0x00000000#32, 0x80000000#32, x⟩) ∧
      recompute n 0x447A0000#32 0x3089705F#32 0x473B8000#32 =
        ⟨0x32830E9C#32, 0xB3030E9C#32, 0x32830E9C#32, 0xB3027E7B#32, 0xBF800000#32⟩ ∧
      recompute n 0x447A0000#32 0x7F7FFFFF#32 0x473B8000#32 =
        ⟨0x3F7EE7AA#32, 0xBFFEE7AA#32, 0x3F7EE7AA#32, 0xBFFDCF55#32, 0x3F800000#32⟩) ∧
    (sin 0x00000000#32 = 0x00000000#32 → cos 0x00000000#32 = 0x3F800000#32 →
      recompute n 0x00000001#32 0x3F800000#32 0x473B8000#32 =
        ⟨0x3F800000#32, 0xC0000000#32, 0x3F800000#32, 0xC0000000#32, 0x3F800000#32⟩) ∧
    (sin 0x40490DB6#32 = 0x39092888#32 → cos 0x40490DB6#32 = 0xBF800000#32 →
      recompute n 0x46BB7E00#32 0x3F800000#32 0x473B8000#32 =
        ⟨0x00000000#32, 0x80000000#32, 0x00000000#32, 0x3FFFFBB6#32, 0x3F7FF76D#32⟩)

/-! ### The Block Processor -/

/-- R123: PROC.BEGIN loads all five coefficients into the latch and stands at (0, 0); both blocks are lent (R52). That
PROC.BEGIN is a step of its own is the pace of log 11, and `lent`, the record of the blocks as they were lent, is the
model's own field (log 10). -/
def Obligations.BeginLoadsTheLatch : Prop :=
  ∀ (s : State) (frame : Frame) (p : Supply) (rest : List Input),
    s.inputs = .word frame p .stepwise :: rest → decode frame = .ok .procRun → Supply.wf s.cfg.N .procRun p = true →
    s.seq.phase = .ready →
    ∃ m : Memory, p = ⟨some m.b0, some m.b1⟩ ∧
      step s = .next { s with K := s.C, seq := ⟨.busy, .ch0, 0⟩, mem := m, lent := m, inputs := rest }

/-- R124, R127, R129: one SAMPLE. The cell is dequantised, the recursion reads `K` and the registers as they were, the
registers shift, the cell is replaced by the quantised output, the sequencer advances in the reference order; nothing
else changes. -/
def Obligations.SampleFollowsTheFourSteps : Prop :=
  ∀ (s : State) (c : Channel) (i : Nat),
    s.inputs = [] → s.seq = ⟨.busy, c, i⟩ → i < s.cfg.N → Memory.wf s.cfg.N s.mem = true →
    let n := hardwareNum
    let d := delays s c
    let x := n.fmul (n.i2f (memRead s.mem c i).toInt) s.cfg.inScale
    let out := n.fsub (n.fsub (n.fadd (n.fadd (n.fmul s.K.b0 x) (n.fmul s.K.b1 d.d0)) (n.fmul s.K.b2 d.d1))
      (n.fmul s.K.a1 d.d2)) (n.fmul s.K.a2 d.d3)
    ∃ t, step s = .next t ∧ delays t c = ⟨x, d.d0, out, d.d2⟩ ∧
      memRead t.mem c i = quantise hardware (n.fmul out s.cfg.outScale) ∧
      (∀ c', c' ≠ c → delays t c' = delays s c') ∧
      (∀ c' j, (c', j) ≠ (c, i) → memRead t.mem c' j = memRead s.mem c' j) ∧
      t.seq = (if i + 1 < s.cfg.N then ⟨.busy, c, i + 1⟩ else if c = .ch0 then ⟨.busy, .ch1, 0⟩
        else ⟨.busy, .ch1, s.cfg.N⟩) ∧
      t = { s with d0 := t.d0, d1 := t.d1, mem := t.mem, seq := t.seq }

/-- R130: PROC.END. The answer is PROCESSED for both channels together, both blocks go back. (`lent` is the model's own
field, log 10.) -/
def Obligations.EndReturnsBothBlocks : Prop :=
  ∀ s : State, s.inputs = [] → s.seq = ⟨.busy, .ch1, s.cfg.N⟩ →
    step s = .next { s with
      seq := ⟨.ready, .ch1, s.cfg.N⟩, lent := ⟨[], []⟩, outputs := .audio 1#1 (some s.mem) :: s.outputs }

/-- R131: PROC.RUN as one function. Each channel ends with `Run` of its registers and its block under the set active at
PROC.BEGIN; `P` and `C` are as they were; the phase is READY; the answer returns the blocks; no address outside the
blocks is touched. That `lent` is cleared is the model's own (log 10). -/
def Obligations.RunFiltersBothBlocks : Prop :=
  ∀ s : State, s.seq.phase = .ready → Memory.wf s.cfg.N s.mem = true →
    ∃ t, exec .procRun s = .next t ∧
      (∀ c, (delays t c, blockCells s.cfg.N (memBlock t.mem c)) =
        filterRun hardware s.cfg s.C (delays s c) (blockCells s.cfg.N (memBlock s.mem c))) ∧
      (∀ c a, s.cfg.N ≤ a → memRead t.mem c a = memRead s.mem c a) ∧
      Memory.wf s.cfg.N t.mem = true ∧ t.P = s.P ∧ t.C = s.C ∧ t.K = s.C ∧ t.seq.phase = .ready ∧ t.cfg = s.cfg ∧
      t.lent = ⟨[], []⟩ ∧ t.inputs = s.inputs ∧ t.free = s.free ∧ t.outputs = .audio 1#1 (some t.mem) :: s.outputs

/-- R122, R74, R182: a skip answers SKIPPED and changes nothing: no register of either channel, no cell of either
block. -/
def Obligations.SkipChangesNothing : Prop :=
  ∀ (s : State) (i : Instr), i = .procSkipB ∨ i = .procSkip0 ∨ i = .procSkip1 → s.seq.phase = .ready →
    exec i s = .next { s with outputs := .audio 0#1 none :: s.outputs }

/-- R121, R138, R183: a tick while a call is in flight is the fault DeadlineMiss, as an operation and as the next word of
a step at either pace. That a skip is the same fault as a PROC.RUN is the model's reading (log 14, DEDUCED). -/
def Obligations.TickWhileBusyIsDeadlineMiss : Prop :=
  ∀ (s : State) (i : Instr), i = .procRun ∨ i = .procSkipB ∨ i = .procSkip0 ∨ i = .procSkip1 → s.seq.phase = .busy →
    exec i s = .fault .deadlineMiss ∧
    ∀ (o : Offer) (rest : List Input), nextSlot s.inputs = .offered o rest → decode o.frame = .ok i →
      Supply.wf s.cfg.N i o.supply = true → step s = .fault .deadlineMiss

/-- R134: one block of length `2N` ends with the registers of two consecutive blocks of length `N` with state carried
over, and with their cells one after the other. -/
def Obligations.BlockBoundaryContinuity : Prop :=
  ∀ (s long : State) (second : Memory),
    s.seq.phase = .ready → long.seq.phase = .ready → long.cfg = { s.cfg with N := 2 * s.cfg.N } → long.C = s.C →
    long.d0 = s.d0 → long.d1 = s.d1 → Memory.wf s.cfg.N s.mem = true → Memory.wf s.cfg.N second = true →
    Memory.wf long.cfg.N long.mem = true →
    (∀ c, blockCells long.cfg.N (memBlock long.mem c) =
      blockCells s.cfg.N (memBlock s.mem c) ++ blockCells s.cfg.N (memBlock second c)) →
    ∃ t u v, exec .procRun s = .next t ∧ exec .procRun { t with mem := second } = .next u ∧
      exec .procRun long = .next v ∧
      ∀ c, delays v c = delays u c ∧
        blockCells long.cfg.N (memBlock v.mem c) =
          blockCells s.cfg.N (memBlock t.mem c) ++ blockCells s.cfg.N (memBlock u.mem c)

/-- R132: the result for a channel depends on the coefficient set, that channel's registers and that channel's block
alone. -/
def Obligations.ChannelsAreIndependent : Prop :=
  ∀ (c : Channel) (s s' : State), s.seq.phase = .ready → s'.seq.phase = .ready → s'.cfg = s.cfg → s'.C = s.C →
    delays s' c = delays s c → memBlock s'.mem c = memBlock s.mem c →
    ∃ t t', exec .procRun s = .next t ∧ exec .procRun s' = .next t' ∧ delays t' c = delays t c ∧
      memBlock t'.mem c = memBlock t.mem c

/-- R73: any interleaving of the two channels' SAMPLE steps that keeps each channel's indices ascending gives the same
final state as the reference order of R129, but for the sequencer, which `samplesInOrder` does not move. -/
def Obligations.ChannelOrderIsImmaterial : Prop :=
  ∀ (s : State) (order : List Channel), order.count .ch0 = s.cfg.N → order.count .ch1 = s.cfg.N →
    let t := samplesInOrder hardware order 0 0 (procBegin s)
    let u := sampleSteps hardware (2 * s.cfg.N) (procBegin s)
    t = { u with seq := t.seq }

/-- R223: an output sample depends on input samples up to its own index only. -/
def Obligations.OutputDependsOnThePastOnly : Prop :=
  ∀ (c : Channel) (k : Nat) (s s' : State), s.seq.phase = .ready → s'.seq.phase = .ready → s'.cfg = s.cfg →
    s'.C = s.C → delays s' c = delays s c → Memory.wf s.cfg.N s.mem = true → Memory.wf s.cfg.N s'.mem = true →
    k ≤ s.cfg.N → (∀ i, i < k → memRead s'.mem c i = memRead s.mem c i) →
    ∃ t t', exec .procRun s = .next t ∧ exec .procRun s' = .next t' ∧
      ∀ i, i < k → memRead t'.mem c i = memRead t.mem c i

/-- R135: all-zero blocks with a zero state give all-zero blocks and leave the state at zero, for every finite set; and
every zero is `+0.0` if the state's were and `b0` has no sign. -/
def Obligations.ZeroInputGivesZeroOutput : Prop :=
  ∀ s : State, s.seq.phase = .ready → configValid hardwareNum s.cfg = true → FiniteSet s.C → ZeroState s.d0 →
    ZeroState s.d1 → s.mem = ⟨[], []⟩ →
    ∃ t, exec .procRun s = .next t ∧ t.mem = ⟨[], []⟩ ∧ ZeroState t.d0 ∧ ZeroState t.d1 ∧
      (signBit s.C.b0 = false → s.d0 = ⟨0#32, 0#32, 0#32, 0#32⟩ → s.d1 = ⟨0#32, 0#32, 0#32, 0#32⟩ →
        t.d0 = s.d0 ∧ t.d1 = s.d1)

/-- R133: a NaN that reaches the feedback registers of a channel stays there under every transition but RESET. -/
def Obligations.NanInFeedbackStaysUntilReset : Prop :=
  ∀ (c : Channel) (s t : State), step s = .next t → nextOperation s ≠ some .reset →
    isNaN (delays s c).d2 = true → isNaN (delays t c).d2 = true

/-- R133, R160: what `QOVF` gives never reaches the delay registers. -/
def Obligations.OverflowNeverReachesTheDelays : Prop :=
  ∀ (num : Numerics) (q q' : F → Cell) (s : State) (c : Channel),
    delays (procCall ⟨num, q⟩ s) c = delays (procCall ⟨num, q'⟩ s) c

/-! ### The call and the control agent -/

/-- R10, R131: a call taken transition by transition, with nothing beside it, ends in the very state that PROC.RUN as
one function gives. -/
def Obligations.StepwiseCallIsTheWholeCall : Prop :=
  ∀ (s : State) (frame : Frame) (p : Supply) (rest : List Input),
    s.seq.phase = .ready → 1 ≤ s.cfg.N → decode frame = .ok .procRun → Supply.wf s.cfg.N .procRun p = true →
    s.inputs = .word frame p .stepwise :: (List.replicate (2 * s.cfg.N + 1) .quiet ++ rest) →
    runSteps (2 * s.cfg.N + 2) s = exec .procRun (place p (takeInput rest s))

/-- R64, R65, R216: setters accepted or rejected at any points beside a call leave the call's registers and blocks as if
they were not there, and `P` and `C` are as if the call were not there. The audio answers are the call's one new answer
on top of the earlier ones, and the control answers are those of the setters alone. -/
def Obligations.SettersBesideACallAreNotSeenByIt : Prop :=
  ∀ (s : State) (frame : Frame) (p : Supply) (events rest : List Input),
    s.seq.phase = .ready → 1 ≤ s.cfg.N → decode frame = .ok .procRun → Supply.wf s.cfg.N .procRun p = true →
    (∀ e ∈ events, BesideCall s.cfg.N e) → events.count .quiet = 2 * s.cfg.N + 1 →
    s.inputs = .word frame p .stepwise :: (events ++ rest) →
    let setters := events.filter (· != .quiet)
    ∃ t u v, runSteps (events.length + 1) s = .next t ∧
      exec .procRun (place p (takeInput rest s)) = .next u ∧
      runSteps setters.length { s with inputs := setters ++ rest } = .next v ∧
      t.d0 = u.d0 ∧ t.d1 = u.d1 ∧ t.mem = u.mem ∧ t.seq.phase = .ready ∧ t.inputs = rest ∧
      t.outputs.filter (·.isAudio) = .audio 1#1 (some u.mem) :: s.outputs.filter (·.isAudio) ∧
      t.outputs.filter (!·.isAudio) = v.outputs.filter (!·.isAudio) ∧ t.P = v.P ∧ t.C = v.C

/-! ### The whole machine -/

/-- R6, R21, R25, R30, R50: the invariant holds right after reset, whatever the host's events. The values that log 1, 8
and 10 name are the model's. -/
def Obligations.InvHoldsAtReset : Prop :=
  ∀ events : List Input, Inv { State.reset with inputs := events }

/-- R21, R25, R30, R50, R111: every step keeps the invariant. -/
def Obligations.EveryStepKeepsInv : Prop :=
  ∀ s t : State, Inv s → step s = .next t → Inv t

/-- R25, R21, R107: in every state reachable from reset, `C = Recompute(P.f, P.q, FS)` with valid parameters, and `b0`
and `b2` are the same, in `C` and in the latch of a call in flight. -/
def Obligations.ReachableCoefficientsAreDerived : Prop :=
  ∀ s : State, Reachable s →
    s.C = recompute hardwareNum s.P.f s.P.q s.cfg.FS ∧ validF hardwareNum s.cfg.FS s.P.f = true ∧
      validQ hardwareNum s.P.q = true ∧ s.C.b0 = s.C.b2 ∧ (s.seq.phase = .busy → s.K.b0 = s.K.b2)

/-- R53, R184, R194: from a state of the invariant nothing faults but a tick while BUSY. From every state the refusals
are exactly those of what cannot be presented: a word that is none of its port's (R88), blocks that do not fit the
header (R56, R83), two words at one port (R66, R220). That the model refuses them by these names is its choice (log 21,
27). -/
def Obligations.OnlyADeadlineMissStops : Prop :=
  (∀ s : State, Inv s → ∀ r, step s = .fault r → r = .deadlineMiss ∧ TickWhileBusy s) ∧
  (∀ s : State,
    (step s = .refused .notAWord ↔ ∃ o rest, nextSlot s.inputs = .offered o rest ∧
      (decode o.frame = .error .wrongWidth ∨ decode o.frame = .error .bitsAboveWidth)) ∧
    (step s = .refused .notPresentable ↔ ∃ o rest i, nextSlot s.inputs = .offered o rest ∧ decode o.frame = .ok i ∧
      Supply.wf s.cfg.N i o.supply = false) ∧
    (step s = .refused .portTakenTwice ↔ ∃ offers rest, s.inputs = .together offers :: rest ∧
      ¬(offers.map (·.frame.port)).Nodup) ∧
    (∀ r, step s = .refused r → r = .notAWord ∨ r = .notPresentable ∨ r = .portTakenTwice))

/-- R139, R194: a call in flight ends by itself after exactly the SAMPLE transitions it still has to make, and one
PROC.END: it is BUSY until then. -/
def Obligations.EveryCallEnds : Prop :=
  ∀ s : State, Inv s → s.seq.phase = .busy → s.inputs = [] →
    samplesLeft s ≤ 2 * s.cfg.N ∧
    (∀ k, k ≤ samplesLeft s → ∃ u, runSteps k s = .next u ∧ u.seq.phase = .busy ∧ samplesLeft u = samplesLeft s - k) ∧
    ∃ t, runSteps (samplesLeft s + 1) s = .next t ∧ t.seq.phase = .ready ∧
      t.outputs = .audio 1#1 (some t.mem) :: s.outputs ∧ t.P = s.P ∧ t.C = s.C

/-- R6, R22: no transition changes a parameter of the instance. -/
def Obligations.ParametersNeverChange : Prop :=
  ∀ s t : State, step s = .next t → t.cfg = s.cfg

/-- R36, R111, R190: who writes what, column by column. `P.f` changes only in SETF or RESET, `P.q` in SETQ or RESET, `C`
in a setter or RESET; `K` in a PROC.RUN; a channel's delay registers in a SAMPLE of that channel, a PROC.RUN or RESET;
`seq` in the sequencer's own transitions, a PROC.RUN or RESET; a block in a SAMPLE of its channel or in a tick whose
header announces that block (R52, R83; of a skip this is the host's placing, log 24). Two entries that R36 leaves blank
are the spec's 'unspecified' instead: after RESET, `K` (R211; free, log 9), and the blocks of a call in flight (R212;
free, log 10). -/
def Obligations.WritesFollowTheAccessMatrix : Prop :=
  ∀ s t : State, step s = .next t →
    let reset := nextOperation s = some .reset
    let run := nextOperation s = some .procRun
    let sampleOf (c : Channel) := nextOperation s = none ∧ s.seq.phase = .busy ∧ s.seq.c = c
    (t.P.f ≠ s.P.f → (∃ v, nextOperation s = some (.setf v)) ∨ reset) ∧
    (t.P.q ≠ s.P.q → (∃ v, nextOperation s = some (.setq v)) ∨ reset) ∧
    (t.C ≠ s.C → (∃ v, nextOperation s = some (.setf v) ∨ nextOperation s = some (.setq v)) ∨ reset) ∧
    (t.K ≠ s.K → run ∨ reset) ∧
    (∀ c, delays t c ≠ delays s c → sampleOf c ∨ run ∨ reset) ∧
    (t.seq ≠ s.seq → (nextOperation s = none ∧ s.seq.phase = .busy) ∨ run ∨ reset) ∧
    (t.mem.b0 ≠ s.mem.b0 → sampleOf .ch0 ∨ (∃ i, nextOperation s = some i ∧ i.avail.1 = true) ∨
      (reset ∧ s.seq.phase = .busy)) ∧
    (t.mem.b1 ≠ s.mem.b1 → sampleOf .ch1 ∨ (∃ i, nextOperation s = some i ∧ i.avail.2 = true) ∨
      (reset ∧ s.seq.phase = .busy))

/-- R32: no transition reads an earlier answer; each adds at most one. -/
def Obligations.AnswersAreNeverRead : Prop :=
  ∀ (s : State) (seen : List Response),
    (∀ t, step s = .next t → ∃ new : List Response, new.length ≤ 1 ∧ t.outputs = new ++ s.outputs ∧
      step { s with outputs := seen } = .next { t with outputs := new ++ seen }) ∧
    (∀ r, step s = .fault r → step { s with outputs := seen } = .fault r) ∧
    (∀ r, step s = .refused r → step { s with outputs := seen } = .refused r)

/-- R30, R31, R35: while READY, what the latch and the sequencer's position hold is never read: it changes no answer, no
register and no cell, and a call that begins overwrites it. So nothing rests on the values log 8 names. -/
def Obligations.UnspecifiedLatchIsNeverRead : Prop :=
  ∀ (s t : State) (k : CoefficientSet) (c : Channel) (i : Nat), s.seq.phase = .ready → step s = .next t →
    ∃ t', step { s with K := k, seq := ⟨.ready, c, i⟩ } = .next t' ∧
      t'.P = t.P ∧ t'.C = t.C ∧ t'.d0 = t.d0 ∧ t'.d1 = t.d1 ∧ t'.mem = t.mem ∧ t'.seq.phase = t.seq.phase ∧
      t'.outputs = t.outputs ∧ t'.inputs = t.inputs ∧ t'.cfg = t.cfg ∧
      (t.seq.phase = .busy → t'.K = t.K ∧ t'.seq = t.seq)

/-! ### RESET -/

/-- R211: RESET, from every state. `K`, `seq.c` and `seq.i` are left unspecified and are not named here. While READY the
block spaces are untouched (R36). -/
def Obligations.ResetRestoresTheDefaults : Prop :=
  ∀ s : State, ∃ t, exec .reset s = .next t ∧
    t.P = ⟨s.cfg.f0Default, s.cfg.q0Default⟩ ∧
    t.C = recompute hardwareNum s.cfg.f0Default s.cfg.q0Default s.cfg.FS ∧
    t.d0 = ⟨0#32, 0#32, 0#32, 0#32⟩ ∧ t.d1 = ⟨0#32, 0#32, 0#32, 0#32⟩ ∧ t.seq.phase = .ready ∧
    t.outputs = s.outputs ∧ t.inputs = s.inputs ∧ t.cfg = s.cfg ∧ (s.seq.phase = .ready → t.mem = s.mem)

/-- R212: after a RESET that abandons a call, wherever the call stood, each cell of the lent blocks holds its input value
or its filtered value. -/
def Obligations.AbandonedCellsHoldInputOrFiltered : Prop :=
  ∀ (s u : State) (k : Nat), s.seq.phase = .ready → 1 ≤ s.cfg.N → Memory.wf s.cfg.N s.mem = true →
    k ≤ 2 * s.cfg.N → exec .procRun s = .next u →
    ∃ t, exec .reset (sampleSteps hardware k (procBegin s)) = .next t ∧
      ∀ c i, i < s.cfg.N → memRead t.mem c i = memRead s.mem c i ∨ memRead t.mem c i = memRead u.mem c i

/-- R34: the state after reset, for every value of the open parameters: the defaults, their coefficients, zero delay
registers, READY. The values of `K`, `seq.c`, `seq.i` are the model's (log 8) and are not named here. -/
def Obligations.StateAfterReset : Prop :=
  configValid hardwareNum State.reset.cfg = true ∧
  State.reset.P = ⟨State.reset.cfg.f0Default, State.reset.cfg.q0Default⟩ ∧
  State.reset.C = recompute hardwareNum State.reset.cfg.f0Default State.reset.cfg.q0Default State.reset.cfg.FS ∧
  State.reset.d0 = ⟨0#32, 0#32, 0#32, 0#32⟩ ∧ State.reset.d1 = ⟨0#32, 0#32, 0#32, 0#32⟩ ∧
  State.reset.seq.phase = .ready

/-! ### Numerics -/

/-- R152: sum, difference, product and quotient of finite values are the exact real results rounded to nearest even, with
overflow to an infinity. -/
def Obligations.ArithmeticRoundsToNearestEven : Prop :=
  ∀ a b : F, fpFinite a = true → fpFinite b = true →
    RoundsTo (realValue a + realValue b) (hardwareNum.fadd a b) ∧
    RoundsTo (realValue a - realValue b) (hardwareNum.fsub a b) ∧
    RoundsTo (realValue a * realValue b) (hardwareNum.fmul a b) ∧
    (realValue b ≠ 0 → RoundsTo (realValue a / realValue b) (hardwareNum.fdiv a b))

/-- R155: the non-trapping results for NaNs and infinities, whichever NaN it is: every operation on every pair of
operands of which one is a NaN or an infinity, and every division by a zero. -/
def Obligations.SpecialOperandsFollowTheDefaults : Prop :=
  let n := hardwareNum
  (∀ a b : F, isNaN a = true ∨ isNaN b = true →
    isNaN (n.fadd a b) = true ∧ isNaN (n.fsub a b) = true ∧ isNaN (n.fmul a b) = true ∧ isNaN (n.fdiv a b) = true) ∧
  (∀ p q : Bool,
    n.fadd (infinity p) (infinity p) = infinity p ∧ isNaN (n.fadd (infinity p) (infinity (!p))) = true ∧
    isNaN (n.fsub (infinity p) (infinity p)) = true ∧ n.fsub (infinity p) (infinity (!p)) = infinity p ∧
    n.fmul (infinity p) (infinity q) = infinity (p != q) ∧ isNaN (n.fdiv (infinity p) (infinity q)) = true ∧
    isNaN (n.fmul (signedZero p) (infinity q)) = true ∧ isNaN (n.fmul (infinity q) (signedZero p)) = true ∧
    isNaN (n.fdiv (signedZero p) (signedZero q)) = true) ∧
  (∀ (x : F) (p : Bool), fpFinite x = true →
    n.fadd (infinity p) x = infinity p ∧ n.fadd x (infinity p) = infinity p ∧
    n.fsub (infinity p) x = infinity p ∧ n.fsub x (infinity p) = infinity (!p) ∧
    n.fdiv x (infinity p) = signedZero (signBit x != p) ∧ n.fdiv (infinity p) x = infinity (p != signBit x) ∧
    (isZero x = false → n.fmul (infinity p) x = infinity (p != signBit x) ∧
      n.fmul x (infinity p) = infinity (signBit x != p) ∧ n.fdiv x (signedZero p) = infinity (signBit x != p))) ∧
  (∀ x : F, fpFinite x = false → isNaN (n.fsin x) = true ∧ isNaN (n.fcos x) = true)

/-- R156: a product or quotient that is zero has the product of the signs; the signs of zero sums. -/
def Obligations.ZerosCarryTheirSigns : Prop :=
  let n := hardwareNum
  (∀ a b : F, isZero (n.fmul a b) = true → signBit (n.fmul a b) = (signBit a != signBit b)) ∧
  (∀ a b : F, isZero (n.fdiv a b) = true → signBit (n.fdiv a b) = (signBit a != signBit b)) ∧
  (∀ p q : Bool, n.fadd (signedZero p) (signedZero q) = signedZero (p && q)) ∧
  (∀ a b : F, fpFinite a = true → fpFinite b = true → isZero a = false → realValue a + realValue b = 0 →
    n.fadd a b = signedZero false)

/-- R157: the comparisons are those of the extended real numbers, and false where an operand is a NaN. -/
def Obligations.ComparisonsOrderTheExtendedReals : Prop :=
  ∀ a b : F,
    (hardwareNum.flt a b = true ↔ isNaN a = false ∧ isNaN b = false ∧
      ((fpFinite a = true ∧ fpFinite b = true ∧ realValue a < realValue b) ∨
        (a = infinity true ∧ b ≠ infinity true) ∨ (b = infinity false ∧ a ≠ infinity false))) ∧
    hardwareNum.fgt a b = hardwareNum.flt b a ∧
    (hardwareNum.isfinite a = true ↔ (a.extractLsb' 23 8).toNat ≠ 255)

/-- R158: the conversion of an integer is exact up to `2^24`, so for every sample. -/
def Obligations.IntegersConvertExactly : Prop :=
  (∀ n : Int, |n| ≤ 2 ^ 24 → fpFinite (hardwareNum.i2f n) = true ∧ realValue (hardwareNum.i2f n) = n) ∧
  hardwareNum.i2f (-32768) = 0xC7000000#32 ∧ hardwareNum.i2f 32767 = 0x46FFFE00#32 ∧ hardwareNum.i2f 0 = 0x00000000#32

/-- R125: with `IN_SCALE = 2^-15` dequantisation is exact: the real number `raw / 32768`. -/
def Obligations.DequantisationByAPowerOfTwoIsExact : Prop :=
  ∀ b : Cell, realValue (dequantise hardwareNum 0x38000000#32 b) = (b.toInt : ℚ) / 32768

/-- R159, R160: `Quant` discards the fraction of a finite value strictly between -32769 and 32768, and is `QOVF`
everywhere else. -/
def Obligations.QuantDiscardsTheFraction : Prop :=
  ∀ y : F,
    (fpFinite y = true → -32769 < realValue y → realValue y < 32768 →
      (quantise hardware y).toInt = truncReal (realValue y)) ∧
    ((fpFinite y = false ∨ realValue y ≤ -32769 ∨ 32768 ≤ realValue y) → quantise hardware y = Config.qovf y)
end

