-- ==== Sys2Proof/Laws/State.lean ====
section
/-! SUPPORT. One lemma per field per update of State: what an update writes and what it leaves alone. -/

namespace Sys2Proof.Machine

section Respond
variable (r : Response) (s : State)

@[simp] theorem respond_cfg : (respond r s).cfg = s.cfg := rfl
@[simp] theorem respond_P : (respond r s).P = s.P := rfl
@[simp] theorem respond_C : (respond r s).C = s.C := rfl
@[simp] theorem respond_K : (respond r s).K = s.K := rfl
@[simp] theorem respond_d0 : (respond r s).d0 = s.d0 := rfl
@[simp] theorem respond_d1 : (respond r s).d1 = s.d1 := rfl
@[simp] theorem respond_seq : (respond r s).seq = s.seq := rfl
@[simp] theorem respond_mem : (respond r s).mem = s.mem := rfl
@[simp] theorem respond_lent : (respond r s).lent = s.lent := rfl
@[simp] theorem respond_inputs : (respond r s).inputs = s.inputs := rfl
@[simp] theorem respond_outputs : (respond r s).outputs = r :: s.outputs := rfl
@[simp] theorem respond_free : (respond r s).free = s.free := rfl

end Respond

section Commit
variable (nm : Numerics) (p : FilterParameters) (s : State)

@[simp] theorem commit_cfg : (commit nm p s).cfg = s.cfg := rfl
@[simp] theorem commit_P : (commit nm p s).P = p := rfl
@[simp] theorem commit_C : (commit nm p s).C = recompute nm p.f p.q s.cfg.FS := rfl
@[simp] theorem commit_K : (commit nm p s).K = s.K := rfl
@[simp] theorem commit_d0 : (commit nm p s).d0 = s.d0 := rfl
@[simp] theorem commit_d1 : (commit nm p s).d1 = s.d1 := rfl
@[simp] theorem commit_seq : (commit nm p s).seq = s.seq := rfl
@[simp] theorem commit_mem : (commit nm p s).mem = s.mem := rfl
@[simp] theorem commit_lent : (commit nm p s).lent = s.lent := rfl
@[simp] theorem commit_inputs : (commit nm p s).inputs = s.inputs := rfl
@[simp] theorem commit_outputs : (commit nm p s).outputs = s.outputs := rfl
@[simp] theorem commit_free : (commit nm p s).free = s.free := rfl

end Commit

section TakeInput
variable (rest : List Input) (s : State)

@[simp] theorem takeInput_cfg : (takeInput rest s).cfg = s.cfg := rfl
@[simp] theorem takeInput_P : (takeInput rest s).P = s.P := rfl
@[simp] theorem takeInput_C : (takeInput rest s).C = s.C := rfl
@[simp] theorem takeInput_K : (takeInput rest s).K = s.K := rfl
@[simp] theorem takeInput_d0 : (takeInput rest s).d0 = s.d0 := rfl
@[simp] theorem takeInput_d1 : (takeInput rest s).d1 = s.d1 := rfl
@[simp] theorem takeInput_seq : (takeInput rest s).seq = s.seq := rfl
@[simp] theorem takeInput_mem : (takeInput rest s).mem = s.mem := rfl
@[simp] theorem takeInput_lent : (takeInput rest s).lent = s.lent := rfl
@[simp] theorem takeInput_inputs : (takeInput rest s).inputs = rest := rfl
@[simp] theorem takeInput_outputs : (takeInput rest s).outputs = s.outputs := rfl
@[simp] theorem takeInput_free : (takeInput rest s).free = s.free := rfl

end TakeInput

section Place
variable (p : Supply) (s : State)

@[simp] theorem place_cfg : (place p s).cfg = s.cfg := rfl
@[simp] theorem place_P : (place p s).P = s.P := rfl
@[simp] theorem place_C : (place p s).C = s.C := rfl
@[simp] theorem place_K : (place p s).K = s.K := rfl
@[simp] theorem place_d0 : (place p s).d0 = s.d0 := rfl
@[simp] theorem place_d1 : (place p s).d1 = s.d1 := rfl
@[simp] theorem place_seq : (place p s).seq = s.seq := rfl
@[simp] theorem place_mem : (place p s).mem = ⟨placePart p.b0 s.mem.b0, placePart p.b1 s.mem.b1⟩ := rfl
@[simp] theorem place_lent : (place p s).lent = s.lent := rfl
@[simp] theorem place_inputs : (place p s).inputs = s.inputs := rfl
@[simp] theorem place_outputs : (place p s).outputs = s.outputs := rfl
@[simp] theorem place_free : (place p s).free = s.free := rfl

end Place

section SetDelays
variable (s : State) (c : Channel) (x : ChannelState)

@[simp] theorem setDelays_cfg : (setDelays s c x).cfg = s.cfg := by cases c <;> rfl
@[simp] theorem setDelays_P : (setDelays s c x).P = s.P := by cases c <;> rfl
@[simp] theorem setDelays_C : (setDelays s c x).C = s.C := by cases c <;> rfl
@[simp] theorem setDelays_K : (setDelays s c x).K = s.K := by cases c <;> rfl
@[simp] theorem setDelays_seq : (setDelays s c x).seq = s.seq := by cases c <;> rfl
@[simp] theorem setDelays_mem : (setDelays s c x).mem = s.mem := by cases c <;> rfl
@[simp] theorem setDelays_lent : (setDelays s c x).lent = s.lent := by cases c <;> rfl
@[simp] theorem setDelays_inputs : (setDelays s c x).inputs = s.inputs := by cases c <;> rfl
@[simp] theorem setDelays_outputs : (setDelays s c x).outputs = s.outputs := by cases c <;> rfl
@[simp] theorem setDelays_free : (setDelays s c x).free = s.free := by cases c <;> rfl
@[simp] theorem setDelays_ch0_d0 : (setDelays s .ch0 x).d0 = x := rfl
@[simp] theorem setDelays_ch0_d1 : (setDelays s .ch0 x).d1 = s.d1 := rfl
@[simp] theorem setDelays_ch1_d0 : (setDelays s .ch1 x).d0 = s.d0 := rfl
@[simp] theorem setDelays_ch1_d1 : (setDelays s .ch1 x).d1 = x := rfl
@[simp] theorem delays_setDelays_same : delays (setDelays s c x) c = x := by cases c <;> rfl

theorem delays_setDelays_other {c c' : Channel} (h : c' ≠ c) : delays (setDelays s c x) c' = delays s c' := by
  cases c <;> cases c' <;> first | rfl | exact absurd rfl h

end SetDelays

@[simp] theorem delays_ch0 (s : State) : delays s .ch0 = s.d0 := rfl
@[simp] theorem delays_ch1 (s : State) : delays s .ch1 = s.d1 := rfl

section ProcBegin
variable (s : State)

@[simp] theorem procBegin_cfg : (procBegin s).cfg = s.cfg := rfl
@[simp] theorem procBegin_P : (procBegin s).P = s.P := rfl
@[simp] theorem procBegin_C : (procBegin s).C = s.C := rfl
@[simp] theorem procBegin_K : (procBegin s).K = s.C := rfl
@[simp] theorem procBegin_d0 : (procBegin s).d0 = s.d0 := rfl
@[simp] theorem procBegin_d1 : (procBegin s).d1 = s.d1 := rfl
@[simp] theorem procBegin_seq : (procBegin s).seq = ⟨.busy, .ch0, 0⟩ := rfl
@[simp] theorem procBegin_mem : (procBegin s).mem = s.mem := rfl
@[simp] theorem procBegin_lent : (procBegin s).lent = s.mem := rfl
@[simp] theorem procBegin_inputs : (procBegin s).inputs = s.inputs := rfl
@[simp] theorem procBegin_outputs : (procBegin s).outputs = s.outputs := rfl
@[simp] theorem procBegin_free : (procBegin s).free = s.free := rfl

end ProcBegin

section ProcEnd
variable (s : State)

@[simp] theorem procEnd_cfg : (procEnd s).cfg = s.cfg := rfl
@[simp] theorem procEnd_P : (procEnd s).P = s.P := rfl
@[simp] theorem procEnd_C : (procEnd s).C = s.C := rfl
@[simp] theorem procEnd_K : (procEnd s).K = s.K := rfl
@[simp] theorem procEnd_d0 : (procEnd s).d0 = s.d0 := rfl
@[simp] theorem procEnd_d1 : (procEnd s).d1 = s.d1 := rfl
@[simp] theorem procEnd_phase : (procEnd s).seq.phase = .ready := rfl
@[simp] theorem procEnd_c : (procEnd s).seq.c = s.seq.c := rfl
@[simp] theorem procEnd_i : (procEnd s).seq.i = s.seq.i := rfl
@[simp] theorem procEnd_mem : (procEnd s).mem = s.mem := rfl
@[simp] theorem procEnd_lent : (procEnd s).lent = emptyMemory := rfl
@[simp] theorem procEnd_inputs : (procEnd s).inputs = s.inputs := rfl
@[simp] theorem procEnd_outputs : (procEnd s).outputs = .audio doneProcessed (some s.mem) :: s.outputs := rfl
@[simp] theorem procEnd_free : (procEnd s).free = s.free := rfl

end ProcEnd

section SampleAt
variable (im : Impl) (c : Channel) (i : Nat) (s : State)

@[simp] theorem sampleAt_cfg : (sampleAt im c i s).cfg = s.cfg := by simp [sampleAt]
@[simp] theorem sampleAt_P : (sampleAt im c i s).P = s.P := by simp [sampleAt]
@[simp] theorem sampleAt_C : (sampleAt im c i s).C = s.C := by simp [sampleAt]
@[simp] theorem sampleAt_K : (sampleAt im c i s).K = s.K := by simp [sampleAt]
@[simp] theorem sampleAt_seq : (sampleAt im c i s).seq = s.seq := by simp [sampleAt]
@[simp] theorem sampleAt_lent : (sampleAt im c i s).lent = s.lent := by simp [sampleAt]
@[simp] theorem sampleAt_inputs : (sampleAt im c i s).inputs = s.inputs := by simp [sampleAt]
@[simp] theorem sampleAt_outputs : (sampleAt im c i s).outputs = s.outputs := by simp [sampleAt]
@[simp] theorem sampleAt_free : (sampleAt im c i s).free = s.free := by simp [sampleAt]

theorem sampleAt_mem : (sampleAt im c i s).mem
    = memWrite s.mem c i (filterStep im s.cfg s.K (delays s c) (memRead s.mem c i)).2 := rfl

theorem sampleAt_delays_same : delays (sampleAt im c i s) c
    = (filterStep im s.cfg s.K (delays s c) (memRead s.mem c i)).1 := by
  cases c <;> rfl

theorem sampleAt_delays_other {c c' : Channel} (h : c' ≠ c) : delays (sampleAt im c i s) c' = delays s c' := by
  cases c <;> cases c' <;> first | rfl | exact absurd rfl h

/-- SAMPLE of one channel writes delay registers and cells, and nothing else (R124). -/
theorem sampleAt_eq : sampleAt im c i s =
    { s with d0 := (sampleAt im c i s).d0, d1 := (sampleAt im c i s).d1, mem := (sampleAt im c i s).mem } := by
  cases c <;> rfl

/-- It reads no event. -/
theorem sampleAt_takeInput (rest : List Input) :
    sampleAt im c i (takeInput rest s) = takeInput rest (sampleAt im c i s) := by
  cases c <;> rfl

end SampleAt

section SampleStep
variable (im : Impl) (s : State)

@[simp] theorem sampleStep_cfg : (sampleStep im s).cfg = s.cfg := by simp [sampleStep]
@[simp] theorem sampleStep_P : (sampleStep im s).P = s.P := by simp [sampleStep]
@[simp] theorem sampleStep_C : (sampleStep im s).C = s.C := by simp [sampleStep]
@[simp] theorem sampleStep_K : (sampleStep im s).K = s.K := by simp [sampleStep]
@[simp] theorem sampleStep_seq : (sampleStep im s).seq = nextPosition s.cfg.N s.seq := rfl
@[simp] theorem sampleStep_lent : (sampleStep im s).lent = s.lent := by simp [sampleStep]
@[simp] theorem sampleStep_inputs : (sampleStep im s).inputs = s.inputs := by simp [sampleStep]
@[simp] theorem sampleStep_outputs : (sampleStep im s).outputs = s.outputs := by simp [sampleStep]
@[simp] theorem sampleStep_free : (sampleStep im s).free = s.free := by simp [sampleStep]
theorem sampleStep_mem : (sampleStep im s).mem = (sampleAt im s.seq.c s.seq.i s).mem := rfl
theorem sampleStep_delays (c : Channel) : delays (sampleStep im s) c = delays (sampleAt im s.seq.c s.seq.i s) c := by
  cases c <;> rfl

/-- SAMPLE writes delay registers, cells and the sequencer, and nothing else (R124). -/
theorem sampleStep_eq : sampleStep im s =
    { s with d0 := (sampleStep im s).d0, d1 := (sampleStep im s).d1, mem := (sampleStep im s).mem,
             seq := nextPosition s.cfg.N s.seq } := by
  unfold sampleStep sampleAt
  cases s.seq.c <;> rfl

theorem sampleStep_takeInput (rest : List Input) :
    sampleStep im (takeInput rest s) = takeInput rest (sampleStep im s) := by
  unfold sampleStep
  rw [takeInput_seq, sampleAt_takeInput]
  rfl

end SampleStep

section SampleSteps
variable (im : Impl) (k : Nat) (s : State)

@[simp] theorem sampleSteps_zero : sampleSteps im 0 s = s := rfl
@[simp] theorem sampleSteps_succ : sampleSteps im (k + 1) s = sampleSteps im k (sampleStep im s) := rfl
@[simp] theorem sampleSteps_cfg : (sampleSteps im k s).cfg = s.cfg := by
  induction k generalizing s with | zero => rfl | succ k ih => simp [ih]
@[simp] theorem sampleSteps_P : (sampleSteps im k s).P = s.P := by
  induction k generalizing s with | zero => rfl | succ k ih => simp [ih]
@[simp] theorem sampleSteps_C : (sampleSteps im k s).C = s.C := by
  induction k generalizing s with | zero => rfl | succ k ih => simp [ih]
@[simp] theorem sampleSteps_K : (sampleSteps im k s).K = s.K := by
  induction k generalizing s with | zero => rfl | succ k ih => simp [ih]
@[simp] theorem sampleSteps_lent : (sampleSteps im k s).lent = s.lent := by
  induction k generalizing s with | zero => rfl | succ k ih => simp [ih]
@[simp] theorem sampleSteps_inputs : (sampleSteps im k s).inputs = s.inputs := by
  induction k generalizing s with | zero => rfl | succ k ih => simp [ih]
@[simp] theorem sampleSteps_outputs : (sampleSteps im k s).outputs = s.outputs := by
  induction k generalizing s with | zero => rfl | succ k ih => simp [ih]
@[simp] theorem sampleSteps_free : (sampleSteps im k s).free = s.free := by
  induction k generalizing s with | zero => rfl | succ k ih => simp [ih]

theorem sampleSteps_takeInput (rest : List Input) :
    sampleSteps im k (takeInput rest s) = takeInput rest (sampleSteps im k s) := by
  induction k generalizing s with
  | zero => rfl
  | succ k ih => rw [sampleSteps_succ, sampleStep_takeInput, ih, sampleSteps_succ]

end SampleSteps

section ResetMachine
variable (im : Impl) (s : State)

@[simp] theorem resetMachine_cfg : (resetMachine im s).cfg = s.cfg := rfl
@[simp] theorem resetMachine_P : (resetMachine im s).P = ⟨s.cfg.f0Default, s.cfg.q0Default⟩ := rfl
@[simp] theorem resetMachine_C : (resetMachine im s).C = defaultCoefficients im.num s.cfg := rfl
@[simp] theorem resetMachine_d0 : (resetMachine im s).d0 = zeroDelays im.num := rfl
@[simp] theorem resetMachine_d1 : (resetMachine im s).d1 = zeroDelays im.num := rfl
@[simp] theorem resetMachine_phase : (resetMachine im s).seq.phase = .ready := rfl
@[simp] theorem resetMachine_mem : (resetMachine im s).mem = memoryAfterReset im s := rfl
@[simp] theorem resetMachine_lent : (resetMachine im s).lent = emptyMemory := rfl
@[simp] theorem resetMachine_inputs : (resetMachine im s).inputs = s.inputs := rfl
@[simp] theorem resetMachine_outputs : (resetMachine im s).outputs = s.outputs := rfl
@[simp] theorem resetMachine_free : (resetMachine im s).free = s.free + 1 := rfl

end ResetMachine

end Sys2Proof.Machine
end

