-- ==== Sys2Proof/Laws/Memory.lean ====
section
/-! SUPPORT. The laws of the block spaces: read after write, other cells untouched, the canonical form kept by every
operation, and equal contents are equal data. -/

namespace Sys2Proof.Machine

theorem Block.wfFrom_cons {n lo a : Nat} {v : Cell} {rest : Block} :
    Block.wfFrom n lo ((a, v) :: rest) = true ↔ lo ≤ a ∧ a < n ∧ v ≠ 0#16 ∧ Block.wfFrom n (a + 1) rest = true := by
  simp [Block.wfFrom, and_assoc]

theorem Block.wfFrom_mono {n lo lo' : Nat} {b : Block} (h : Block.wfFrom n lo b = true) (hlo : lo' ≤ lo) :
    Block.wfFrom n lo' b = true := by
  cases b with
  | nil => rfl
  | cons x rest =>
    obtain ⟨a, v⟩ := x
    rw [Block.wfFrom_cons] at h ⊢
    exact ⟨hlo.trans h.1, h.2⟩

theorem blockRead_below {n lo i : Nat} {b : Block} (h : Block.wfFrom n lo b = true) (hi : i < lo) :
    blockRead b i = 0#16 := by
  induction b generalizing lo with
  | nil => rfl
  | cons x rest ih =>
    obtain ⟨a, v⟩ := x
    rw [Block.wfFrom_cons] at h
    have hne : a ≠ i := by omega
    simpa [blockRead, hne] using ih h.2.2.2 (by omega)

theorem blockRead_above {n lo i : Nat} {b : Block} (h : Block.wfFrom n lo b = true) (hi : n ≤ i) :
    blockRead b i = 0#16 := by
  induction b generalizing lo with
  | nil => rfl
  | cons x rest ih =>
    obtain ⟨a, v⟩ := x
    rw [Block.wfFrom_cons] at h
    have hne : a ≠ i := by omega
    simpa [blockRead, hne] using ih h.2.2.2

/-- A write is read back. -/
theorem blockRead_blockWrite_same {n lo : Nat} {b : Block} (i : Nat) (v : Cell) (h : Block.wfFrom n lo b = true) :
    blockRead (blockWrite b i v) i = v := by
  induction b generalizing lo with
  | nil => by_cases hv : v = 0#16 <;> simp [blockWrite, blockRead, hv]
  | cons x rest ih =>
    obtain ⟨a, w⟩ := x
    rw [Block.wfFrom_cons] at h
    obtain ⟨-, -, -, hr⟩ := h
    by_cases hlt : i < a
    · by_cases hv : v = 0#16
      · have hne : a ≠ i := by omega
        simp [blockWrite, blockRead, hlt, hv, hne, blockRead_below hr (show i < a + 1 by omega)]
      · simp [blockWrite, blockRead, hlt, hv]
    · by_cases heq : i = a
      · subst heq
        by_cases hv : v = 0#16
        · simp [blockWrite, hv, blockRead_below hr (show i < i + 1 by omega)]
        · simp [blockWrite, blockRead, hv]
      · have hne : a ≠ i := fun e => heq e.symm
        simp [blockWrite, blockRead, hlt, heq, hne, ih hr]

/-- A write leaves every other cell alone. -/
theorem blockRead_blockWrite_other (b : Block) {i j : Nat} (v : Cell) (h : j ≠ i) :
    blockRead (blockWrite b i v) j = blockRead b j := by
  induction b with
  | nil => by_cases hv : v = 0#16 <;> simp [blockWrite, blockRead, hv, h.symm]
  | cons x rest ih =>
    obtain ⟨a, w⟩ := x
    by_cases hlt : i < a
    · by_cases hv : v = 0#16 <;> simp [blockWrite, blockRead, hlt, hv, h.symm]
    · by_cases heq : i = a
      · subst heq
        by_cases hv : v = 0#16 <;> simp [blockWrite, blockRead, hv, h.symm]
      · rw [show blockWrite ((a, w) :: rest) i v = (a, w) :: blockWrite rest i v by simp [blockWrite, hlt, heq]]
        simp only [blockRead, ih]

/-- A write at a valid index keeps the canonical form. -/
theorem Block.wfFrom_blockWrite {n lo i : Nat} {b : Block} (v : Cell) (h : Block.wfFrom n lo b = true) (hlo : lo ≤ i)
    (hi : i < n) : Block.wfFrom n lo (blockWrite b i v) = true := by
  induction b generalizing lo with
  | nil => by_cases hv : v = 0#16 <;> simp [blockWrite, Block.wfFrom, hv, hlo, hi]
  | cons x rest ih =>
    obtain ⟨a, w⟩ := x
    have hc := Block.wfFrom_cons.1 h
    obtain ⟨hla, han, hw, hr⟩ := hc
    by_cases hlt : i < a
    · by_cases hv : v = 0#16
      · simpa [blockWrite, hlt, hv] using h
      · simp only [blockWrite, hlt, hv, if_true, if_false, Block.wfFrom_cons]
        exact ⟨hlo, hi, hv, by omega, han, hw, hr⟩
    · by_cases heq : i = a
      · subst heq
        by_cases hv : v = 0#16
        · simpa [blockWrite, hv] using Block.wfFrom_mono hr (by omega)
        · simp only [blockWrite, lt_irrefl, if_true, if_false, hv, Block.wfFrom_cons]
          exact ⟨hla, han, hv, hr⟩
      · simp only [blockWrite, hlt, heq, if_false, Block.wfFrom_cons]
        exact ⟨hla, han, hw, ih hr (by omega)⟩

/-- Equal contents are equal data. -/
theorem Block.eq_of_read {n lo : Nat} {b b' : Block} (h : Block.wfFrom n lo b = true)
    (h' : Block.wfFrom n lo b' = true) (hr : ∀ i, blockRead b i = blockRead b' i) : b = b' := by
  induction b generalizing lo b' with
  | nil =>
    cases b' with
    | nil => rfl
    | cons x rest =>
      obtain ⟨a, v⟩ := x
      rw [Block.wfFrom_cons] at h'
      exact absurd (by simpa [blockRead] using (hr a).symm) h'.2.2.1
  | cons x rest ih =>
    obtain ⟨a, v⟩ := x
    have hc := Block.wfFrom_cons.1 h
    cases b' with
    | nil => exact absurd (by simpa [blockRead] using hr a) hc.2.2.1
    | cons x' rest' =>
      obtain ⟨a', v'⟩ := x'
      have hc' := Block.wfFrom_cons.1 h'
      have haa : a = a' := by
        rcases Nat.lt_trichotomy a a' with hlt | heq | hgt
        · have := hr a
          rw [show blockRead ((a, v) :: rest) a = v by simp [blockRead]] at this
          rw [blockRead_below (n := n) (lo := a') (Block.wfFrom_cons.2 ⟨le_rfl, hc'.2⟩) hlt] at this
          exact absurd this hc.2.2.1
        · exact heq
        · have := hr a'
          rw [show blockRead ((a', v') :: rest') a' = v' by simp [blockRead]] at this
          rw [blockRead_below (n := n) (lo := a) (Block.wfFrom_cons.2 ⟨le_rfl, hc.2⟩) hgt] at this
          exact absurd this.symm hc'.2.2.1
      subst haa
      have hv : v = v' := by simpa [blockRead] using hr a
      subst hv
      have hrest : rest = rest' := by
        refine ih hc.2.2.2 hc'.2.2.2 fun i => ?_
        by_cases hi : a = i
        · subst hi
          rw [blockRead_below hc.2.2.2 (Nat.lt_succ_self a), blockRead_below hc'.2.2.2 (Nat.lt_succ_self a)]
        · simpa [blockRead, hi] using hr i
      rw [hrest]

theorem Block.wfFrom_blockFrom (g : Nat → Cell) {n lo k : Nat} (h : lo + k ≤ n) :
    Block.wfFrom n lo (blockFrom g lo k) = true := by
  induction k generalizing lo with
  | zero => rfl
  | succ k ih =>
    have hr := ih (lo := lo + 1) (by omega)
    by_cases hg : g lo = 0#16
    · simpa [blockFrom, hg] using Block.wfFrom_mono hr (by omega)
    · simp only [blockFrom, hg, if_false, Block.wfFrom_cons]
      exact ⟨le_rfl, by omega, hg, hr⟩

theorem blockRead_blockFrom (g : Nat → Cell) (lo k i : Nat) :
    blockRead (blockFrom g lo k) i = if lo ≤ i ∧ i < lo + k then g i else 0#16 := by
  induction k generalizing lo with
  | zero =>
    rw [if_neg (by omega)]
    rfl
  | succ k ih =>
    by_cases hi : lo = i
    · subst hi
      by_cases hg : g lo = 0#16
      · rw [show blockFrom g lo (k + 1) = blockFrom g (lo + 1) k by simp [blockFrom, hg], ih,
          if_neg (by omega), if_pos (by omega), hg]
      · simp [blockFrom, hg, blockRead]
    · by_cases hg : g lo = 0#16
      · rw [show blockFrom g lo (k + 1) = blockFrom g (lo + 1) k by simp [blockFrom, hg], ih]
        exact if_congr (by omega) rfl rfl
      · simp only [blockFrom, hg, if_false, blockRead, hi]
        rw [ih]
        exact if_congr (by omega) rfl rfl

theorem Memory.wf_iff {n : Nat} {m : Memory} :
    Memory.wf n m = true ↔ ∀ c, Block.wf n (memBlock m c) = true := by
  simp only [Memory.wf, Bool.and_eq_true]
  exact ⟨fun h c => by cases c; exacts [h.1, h.2], fun h => ⟨h .ch0, h .ch1⟩⟩

theorem memBlock_memWrite_same (m : Memory) (c : Channel) (i : Nat) (v : Cell) :
    memBlock (memWrite m c i v) c = blockWrite (memBlock m c) i v := by cases c <;> rfl

theorem memBlock_memWrite_other (m : Memory) {c c' : Channel} (i : Nat) (v : Cell) (h : c' ≠ c) :
    memBlock (memWrite m c i v) c' = memBlock m c' := by
  cases c <;> cases c' <;> first | rfl | exact absurd rfl h

/-- MemRead after MemWrite at the same address (R59). -/
theorem memRead_memWrite_same {n : Nat} {m : Memory} (h : Memory.wf n m = true) (c : Channel) (i : Nat) (v : Cell) :
    memRead (memWrite m c i v) c i = v := by
  rw [memRead, memBlock_memWrite_same]
  exact blockRead_blockWrite_same i v (Memory.wf_iff.1 h c)

/-- MemWrite leaves every other address alone. -/
theorem memRead_memWrite_other (m : Memory) {c c' : Channel} {i j : Nat} (v : Cell) (h : (c', j) ≠ (c, i)) :
    memRead (memWrite m c i v) c' j = memRead m c' j := by
  by_cases hc : c' = c
  · subst hc
    rw [memRead, memBlock_memWrite_same]
    exact blockRead_blockWrite_other _ _ fun hj => h (by rw [hj])
  · rw [memRead, memBlock_memWrite_other m i v hc]
    rfl

/-- MemWrite at a valid address keeps the canonical form. -/
theorem Memory.wf_memWrite {n : Nat} {m : Memory} (h : Memory.wf n m = true) (c : Channel) {i : Nat} (hi : i < n)
    (v : Cell) : Memory.wf n (memWrite m c i v) = true := by
  rw [Memory.wf_iff] at h ⊢
  intro c'
  by_cases hc : c' = c
  · subst hc
    rw [memBlock_memWrite_same]
    exact Block.wfFrom_blockWrite v (h c') (Nat.zero_le i) hi
  · rw [memBlock_memWrite_other m i v hc]
    exact h c'

@[simp] theorem Memory.wf_empty (n : Nat) : Memory.wf n emptyMemory = true := rfl

/-- The host's supply keeps the canonical form. -/
theorem Memory.wf_place {i : Instr} {p : Supply} {s : State} (h : Memory.wf s.cfg.N s.mem = true)
    (hp : p.wf s.cfg.N i = true) : Memory.wf s.cfg.N (place p s).mem = true := by
  obtain ⟨p0, p1⟩ := p
  simp only [Supply.wf, Bool.and_eq_true] at hp
  simp only [Memory.wf, Bool.and_eq_true, place_mem] at h ⊢
  constructor
  · cases p0 with
    | none => exact h.1
    | some b =>
      have := hp.1
      simp only [Supply.partWf, Bool.and_eq_true] at this
      exact this.2
  · cases p1 with
    | none => exact h.2
    | some b =>
      have := hp.2
      simp only [Supply.partWf, Bool.and_eq_true] at this
      exact this.2

/-- A block abandoned by RESET is in canonical form. -/
theorem Block.wf_abandonedBlock (free n : Nat) (c : Channel) (input filtered : Block) :
    Block.wf n (abandonedBlock free n c input filtered) = true :=
  Block.wfFrom_blockFrom _ (by omega)

/-- RESET keeps the canonical form. -/
theorem Memory.wf_memoryAfterReset (im : Impl) {s : State} (h : Memory.wf s.cfg.N s.mem = true) :
    Memory.wf s.cfg.N (memoryAfterReset im s) = true := by
  unfold memoryAfterReset
  cases s.seq.phase with
  | ready => exact h
  | busy => simp [Memory.wf, Block.wf_abandonedBlock]

/-- SAMPLE at a valid index keeps the canonical form. -/
theorem Memory.wf_sampleAt (im : Impl) (c : Channel) {i : Nat} {s : State} (h : Memory.wf s.cfg.N s.mem = true)
    (hi : i < s.cfg.N) : Memory.wf s.cfg.N (sampleAt im c i s).mem = true := by
  rw [sampleAt_mem]
  exact Memory.wf_memWrite h c hi _

end Sys2Proof.Machine
end

