-- ==== Sys2Proof/Laws/Operations.lean ====
section
/-! SUPPORT. What each shared operation can do, said once: raising, setters, SAMPLE and its sequencing, the block
transaction, RESET. -/

namespace Sys2Proof.Machine

/-- `raise` only answers (R187). -/
@[simp] theorem raise_invalidParameter (s : State) : raise .invalidParameter s = respond (.control stInvalid) s := rfl
@[simp] theorem raise_missingInput (s : State) : raise .missingInput s = respond (.audio doneSkipped none) s := rfl
@[simp] theorem raise_deadlineMiss (s : State) : raise .deadlineMiss s = s := rfl

/-- A setter either commits and answers OK, or only answers InvalidParameter (R102, R103, R110). -/
theorem setter_cases (nm : Numerics) (valid : Bool) (p : FilterParameters) (s : State) :
    (valid = true ∧ setter nm valid p s = respond (.control stOk) (commit nm p s)) ∨
    (valid = false ∧ setter nm valid p s = respond (.control stInvalid) s) := by
  cases valid
  · exact .inr ⟨rfl, rfl⟩
  · exact .inl ⟨rfl, rfl⟩

/-- A setter leaves everything but `P`, `C` and the answers alone (R102, R103: "never touched"). -/
theorem setter_frame (nm : Numerics) (valid : Bool) (p : FilterParameters) (s : State) :
    let t := setter nm valid p s
    t.cfg = s.cfg ∧ t.K = s.K ∧ t.d0 = s.d0 ∧ t.d1 = s.d1 ∧ t.seq = s.seq ∧ t.mem = s.mem ∧ t.lent = s.lent
      ∧ t.inputs = s.inputs ∧ t.free = s.free := by
  cases valid <;> simp [setter]

theorem whenReady_ready {f : State → State} {s : State} (h : s.seq.phase = .ready) :
    whenReady f s = .next (f s) := by
  simp [whenReady, h]

theorem whenReady_busy {f : State → State} {s : State} (h : s.seq.phase = .busy) :
    whenReady f s = .fault .deadlineMiss := by
  simp [whenReady, h]

/-- A block transaction runs only while READY (R121, R138). -/
theorem whenReady_eq_next {f : State → State} {s t : State} (h : whenReady f s = .next t) :
    s.seq.phase = .ready ∧ t = f s := by
  unfold whenReady at h
  split at h
  · next hp => exact ⟨hp, by simpa using h.symm⟩
  · cases h

theorem whenReady_eq_fault {f : State → State} {s : State} {r : Fault} (h : whenReady f s = .fault r) :
    s.seq.phase = .busy ∧ r = .deadlineMiss := by
  unfold whenReady at h
  split at h
  · cases h
  · next hp => exact ⟨hp, by simpa using h.symm⟩

theorem whenReady_ne_refused {f : State → State} {s : State} {r : Refusal} : whenReady f s ≠ .refused r := by
  unfold whenReady
  split <;> intro h <;> cases h

/-- The sequencer's move is PROC.END at `(1, N)`, SAMPLE at a valid index, and nothing else (R124, R130). -/
theorem sequencerMove_eq_next {im : Impl} {s t : State} (h : sequencerMove im s = .next t) :
    (s.seq.c = .ch1 ∧ s.seq.i = s.cfg.N ∧ t = procEnd s) ∨ (s.seq.i < s.cfg.N ∧ t = sampleStep im s) := by
  unfold sequencerMove at h
  split at h
  · next hp => exact .inl ⟨hp.1, hp.2, by simpa using h.symm⟩
  · split at h
    · next hi => exact .inr ⟨hi, by simpa using h.symm⟩
    · cases h

/-- The sequencer's move stops only at a position outside R30's. -/
theorem sequencerMove_eq_fault {im : Impl} {s : State} {r : Fault} (h : sequencerMove im s = .fault r) :
    r = .noSuchCell ∧ s.cfg.N ≤ s.seq.i ∧ ¬(s.seq.c = .ch1 ∧ s.seq.i = s.cfg.N) := by
  unfold sequencerMove at h
  split at h
  · cases h
  · next hp =>
    split at h
    · cases h
    · next hi => exact ⟨by simpa using h.symm, Nat.not_lt.1 hi, hp⟩

theorem sequencerMove_ne_refused {im : Impl} {s : State} {r : Refusal} : sequencerMove im s ≠ .refused r := by
  unfold sequencerMove
  split
  · intro h; cases h
  · split <;> intro h <;> cases h

theorem sequencerMove_sample {im : Impl} {s : State} (h : s.seq.i < s.cfg.N) :
    sequencerMove im s = .next (sampleStep im s) := by
  have hp : ¬(s.seq.c = .ch1 ∧ s.seq.i = s.cfg.N) := fun hh => by omega
  simp [sequencerMove, hp, h]

theorem sequencerMove_end {im : Impl} {s : State} (hc : s.seq.c = .ch1) (hi : s.seq.i = s.cfg.N) :
    sequencerMove im s = .next (procEnd s) := by
  simp [sequencerMove, hc, hi]

/-- What the hardware does by itself: idle while READY, its sequencer's move while BUSY. -/
theorem ownMove_eq_next {im : Impl} {s t : State} (h : ownMove im s = .next t) :
    (s.seq.phase = .ready ∧ t = s) ∨
    (s.seq.phase = .busy ∧ s.seq.c = .ch1 ∧ s.seq.i = s.cfg.N ∧ t = procEnd s) ∨
    (s.seq.phase = .busy ∧ s.seq.i < s.cfg.N ∧ t = sampleStep im s) := by
  unfold ownMove at h
  split at h
  · next hp => exact .inl ⟨hp, by simpa using h.symm⟩
  · next hp =>
    rcases sequencerMove_eq_next h with ⟨hc, hi, rfl⟩ | ⟨hi, rfl⟩
    · exact .inr (.inl ⟨hp, hc, hi, rfl⟩)
    · exact .inr (.inr ⟨hp, hi, rfl⟩)

theorem ownMove_ready {im : Impl} {s : State} (h : s.seq.phase = .ready) : ownMove im s = .next s := by
  simp [ownMove, h]

theorem ownMove_busy {im : Impl} {s : State} (h : s.seq.phase = .busy) : ownMove im s = sequencerMove im s := by
  simp [ownMove, h]

theorem nextPosition_phase (n : Nat) (q : Sequencer) : (nextPosition n q).phase = .busy := by
  unfold nextPosition
  split
  · rfl
  · split <;> rfl

/-- The sequencer stays at R30's positions (R129). -/
theorem nextPosition_legal {n : Nat} (q : Sequencer) (hn : 0 < n) : (nextPosition n q).Legal n := by
  unfold nextPosition
  split
  · next h => exact .inl h
  · split
    · exact .inl hn
    · exact .inr ⟨rfl, rfl⟩

/-- `Run` visits every cell once. -/
theorem filterRun_length (im : Impl) (cfg : Config) (k : CoefficientSet) (d : ChannelState) (xs : List Cell) :
    (filterRun im cfg k d xs).2.length = xs.length := by
  induction xs generalizing d with
  | nil => rfl
  | cons x xs ih => simp [filterRun, ih]

/-- `Run` over a joined block is `Run` over its two parts, the state carried over (R134). -/
theorem filterRun_append (im : Impl) (cfg : Config) (k : CoefficientSet) (d : ChannelState) (xs ys : List Cell) :
    filterRun im cfg k d (xs ++ ys) =
      ((filterRun im cfg k (filterRun im cfg k d xs).1 ys).1,
        (filterRun im cfg k d xs).2 ++ (filterRun im cfg k (filterRun im cfg k d xs).1 ys).2) := by
  induction xs generalizing d with
  | nil => rfl
  | cons x xs ih => simp [filterRun, ih]

/-- The delay registers after one SAMPLE: the shift of R127, with the unquantised output. -/
theorem filterStep_delays (im : Impl) (cfg : Config) (k : CoefficientSet) (d : ChannelState) (x : Cell) :
    (filterStep im cfg k d x).1 =
      ⟨dequantise im.num cfg.inScale x, d.d0, recursion im.num k (dequantise im.num cfg.inScale x) d, d.d2⟩ := rfl

/-- The cell after one SAMPLE (R128). -/
theorem filterStep_cell (im : Impl) (cfg : Config) (k : CoefficientSet) (d : ChannelState) (x : Cell) :
    (filterStep im cfg k d x).2 =
      quantise im (im.num.fmul (recursion im.num k (dequantise im.num cfg.inScale x) d) cfg.outScale) := rfl

/-- SAMPLE depends on the parameters, the latch, its channel's registers and its cell alone (R132). -/
theorem sampleAt_congr {im : Impl} {c : Channel} {i : Nat} {s s' : State} (hcfg : s.cfg = s'.cfg) (hK : s.K = s'.K)
    (hd : delays s c = delays s' c) (hm : memBlock s.mem c = memBlock s'.mem c) :
    delays (sampleAt im c i s) c = delays (sampleAt im c i s') c ∧
      memBlock (sampleAt im c i s).mem c = memBlock (sampleAt im c i s').mem c := by
  rw [sampleAt_delays_same, sampleAt_delays_same, sampleAt_mem, sampleAt_mem, memBlock_memWrite_same,
    memBlock_memWrite_same]
  simp only [memRead, hcfg, hK, hd, hm, and_self]

/-- SAMPLE of one channel leaves the other channel's block alone (R27, R73). -/
theorem sampleAt_memBlock_other (im : Impl) {c c' : Channel} (i : Nat) (s : State) (h : c' ≠ c) :
    memBlock (sampleAt im c i s).mem c' = memBlock s.mem c' := by
  rw [sampleAt_mem]
  exact memBlock_memWrite_other _ _ _ h

/-- RESET while READY leaves the block spaces alone (R36). -/
theorem memoryAfterReset_ready {im : Impl} {s : State} (h : s.seq.phase = .ready) : memoryAfterReset im s = s.mem := by
  simp [memoryAfterReset, h]

end Sys2Proof.Machine
end

