-- ==== Sys2Proof/Laws/BlockProcessor.lean ====
section
/-! SUPPORT. One channel seen by itself: what SAMPLE, and the SAMPLE transitions of a whole call, do to a channel's
registers and block. -/

namespace Sys2Proof.Machine

/-- SAMPLE at index `i` as a change of one channel's registers and block (R124, R132). -/
def chanStep (im : Impl) (cfg : Config) (k : CoefficientSet) (i : Nat) (x : ChannelState × Block) :
    ChannelState × Block :=
  let r := filterStep im cfg k x.1 (blockRead x.2 i)
  (r.1, blockWrite x.2 i r.2)

/-- SAMPLE at the `n` indices from `i` on. -/
def chanRun (im : Impl) (cfg : Config) (k : CoefficientSet) : Nat → Nat → ChannelState × Block → ChannelState × Block
  | 0, _, x => x
  | n + 1, i, x => chanRun im cfg k n (i + 1) (chanStep im cfg k i x)

/-- A channel's registers and block. -/
def chan (s : State) (c : Channel) : ChannelState × Block := (delays s c, memBlock s.mem c)

theorem chan_sampleAt_same (im : Impl) (c : Channel) (i : Nat) (s : State) :
    chan (sampleAt im c i s) c = chanStep im s.cfg s.K i (chan s c) := by
  cases c <;> rfl

theorem chan_sampleAt_other (im : Impl) {c c' : Channel} (i : Nat) (s : State) (h : c' ≠ c) :
    chan (sampleAt im c i s) c' = chan s c' := by
  simp only [chan, sampleAt_delays_other (h := h), sampleAt_memBlock_other im i s h]

theorem chan_sampleStep (im : Impl) (s : State) (c : Channel) :
    chan (sampleStep im s) c = chan (sampleAt im s.seq.c s.seq.i s) c := by
  cases c <;> rfl

/-- Two states that agree on both channels agree on registers and blocks. -/
theorem eq_of_chan {s t : State} (h : ∀ c, chan s c = chan t c) : s.d0 = t.d0 ∧ s.d1 = t.d1 ∧ s.mem = t.mem := by
  have h0 := Prod.mk.inj (h .ch0)
  have h1 := Prod.mk.inj (h .ch1)
  refine ⟨h0.1, h1.1, ?_⟩
  have hb0 : s.mem.b0 = t.mem.b0 := h0.2
  have hb1 : s.mem.b1 = t.mem.b1 := h1.2
  cases hs : s.mem
  cases ht : t.mem
  rw [hs, ht] at hb0 hb1
  simp_all

/-- In any order that keeps each channel's indices ascending, a channel sees only its own steps (R73). -/
theorem chan_samplesInOrder (im : Impl) (order : List Channel) (i j : Nat) (s : State) :
    chan (samplesInOrder im order i j s) .ch0 = chanRun im s.cfg s.K (order.count .ch0) i (chan s .ch0) ∧
    chan (samplesInOrder im order i j s) .ch1 = chanRun im s.cfg s.K (order.count .ch1) j (chan s .ch1) := by
  induction order generalizing i j s with
  | nil => exact ⟨rfl, rfl⟩
  | cons c order ih =>
    cases c with
    | ch0 =>
      obtain ⟨h0, h1⟩ := ih (i + 1) j (sampleAt im .ch0 i s)
      rw [sampleAt_cfg, sampleAt_K, chan_sampleAt_same] at h0
      rw [sampleAt_cfg, sampleAt_K, chan_sampleAt_other im i s (by decide)] at h1
      simpa [samplesInOrder, List.count_cons] using ⟨h0, h1⟩
    | ch1 =>
      obtain ⟨h0, h1⟩ := ih i (j + 1) (sampleAt im .ch1 j s)
      rw [sampleAt_cfg, sampleAt_K, chan_sampleAt_other im j s (by decide)] at h0
      rw [sampleAt_cfg, sampleAt_K, chan_sampleAt_same] at h1
      simpa [samplesInOrder, List.count_cons] using ⟨h0, h1⟩

theorem sampleSteps_add (im : Impl) (a b : Nat) (s : State) :
    sampleSteps im (a + b) s = sampleSteps im b (sampleSteps im a s) := by
  induction a generalizing s with
  | zero => simp
  | succ a ih => rw [Nat.succ_add]; simp [ih]

/-- Where the sequencer stands when a channel is finished (R129). -/
def afterChannel (n : Nat) : Channel → Sequencer
  | .ch0 => ⟨.busy, .ch1, 0⟩
  | .ch1 => ⟨.busy, .ch1, n⟩

/-- The rest of one channel, from index `i` to the end (R129). -/
theorem sampleSteps_channel (im : Impl) {c : Channel} {n i : Nat} {s : State} (hs : s.seq = ⟨.busy, c, i⟩)
    (hn : i + (n + 1) = s.cfg.N) :
    let t := sampleSteps im (n + 1) s
    chan t c = chanRun im s.cfg s.K (n + 1) i (chan s c) ∧ (∀ c', c' ≠ c → chan t c' = chan s c') ∧
      t.seq = afterChannel s.cfg.N c := by
  have hc : s.seq.c = c := by rw [hs]
  have hi : s.seq.i = i := by rw [hs]
  have same : chan (sampleStep im s) c = chanStep im s.cfg s.K i (chan s c) := by
    rw [chan_sampleStep, hc, hi, chan_sampleAt_same]
  have other : ∀ c', c' ≠ c → chan (sampleStep im s) c' = chan s c' := fun c' h => by
    rw [chan_sampleStep, hc, hi, chan_sampleAt_other im i s h]
  induction n generalizing i s with
  | zero =>
    refine ⟨same, other, ?_⟩
    show nextPosition s.cfg.N s.seq = _
    rw [hs, nextPosition, if_neg (show ¬ i + 1 < s.cfg.N by omega)]
    cases c <;> rfl
  | succ n ih =>
    have hseq : (sampleStep im s).seq = ⟨.busy, c, i + 1⟩ := by
      rw [sampleStep_seq, hs, nextPosition, if_pos (show i + 1 < s.cfg.N by omega)]
    obtain ⟨h1, h2, h3⟩ := ih (s := sampleStep im s) hseq (by rw [sampleStep_cfg]; omega) (by rw [hseq]) (by rw [hseq])
      (by rw [chan_sampleStep, hseq, chan_sampleAt_same])
      (fun c' h => by rw [chan_sampleStep, hseq, chan_sampleAt_other im (i + 1) _ h])
    rw [sampleStep_cfg, sampleStep_K, same] at h1
    rw [sampleStep_cfg] at h3
    exact ⟨h1, fun c' h => (h2 c' h).trans (other c' h), h3⟩

/-- The SAMPLE transitions of a whole call: each channel runs over its own block, and PROC.END is next (R121, R129). -/
theorem sampleSteps_call (im : Impl) (s : State) :
    let t := sampleSteps im (2 * s.cfg.N) (procBegin s)
    (∀ c, chan t c = chanRun im s.cfg s.C s.cfg.N 0 (chan s c)) ∧ (1 ≤ s.cfg.N → t.seq = ⟨.busy, .ch1, s.cfg.N⟩) := by
  cases hN : s.cfg.N with
  | zero => exact ⟨fun c => by cases c <;> rfl, fun h => by omega⟩
  | succ n =>
    obtain ⟨a1, a2, a3⟩ := sampleSteps_channel im (c := .ch0) (n := n) (i := 0) (s := procBegin s) rfl
      (by rw [procBegin_cfg]; omega)
    obtain ⟨b1, b2, b3⟩ := sampleSteps_channel im (c := .ch1) (n := n) (i := 0)
      (s := sampleSteps im (n + 1) (procBegin s)) a3 (by rw [sampleSteps_cfg, procBegin_cfg]; omega)
    have ht : sampleSteps im (2 * (n + 1)) (procBegin s)
        = sampleSteps im (n + 1) (sampleSteps im (n + 1) (procBegin s)) := by
      rw [← sampleSteps_add, Nat.two_mul]
    rw [sampleSteps_cfg, sampleSteps_K, procBegin_cfg, procBegin_K, a2 .ch1 (by decide)] at b1
    rw [procBegin_cfg, procBegin_K] at a1
    rw [sampleSteps_cfg, procBegin_cfg, hN] at b3
    simp only [ht]
    refine ⟨fun c => ?_, fun _ => b3⟩
    cases c with
    | ch0 => exact (b2 .ch0 (by decide)).trans a1
    | ch1 => exact b1

/-- One channel's steps on a canonical block are `Run` of R131 on its cells; other cells are untouched. -/
theorem chanRun_eq_filterRun (im : Impl) (cfg : Config) (k : CoefficientSet) {m n i : Nat} {d : ChannelState} {b : Block}
    (hb : Block.wf m b = true) (hn : i + n ≤ m) :
    let y := chanRun im cfg k n i (d, b)
    let r := filterRun im cfg k d ((List.range' i n).map (blockRead b))
    y.1 = r.1 ∧ (List.range' i n).map (blockRead y.2) = r.2 ∧ Block.wf m y.2 = true ∧
      ∀ a, a < i ∨ i + n ≤ a → blockRead y.2 a = blockRead b a := by
  induction n generalizing i d b with
  | zero => exact ⟨rfl, rfl, hb, fun _ _ => rfl⟩
  | succ n ih =>
    obtain ⟨h1, h2, h3, h4⟩ := ih (i := i + 1) (d := (filterStep im cfg k d (blockRead b i)).1)
      (b := blockWrite b i (filterStep im cfg k d (blockRead b i)).2)
      (Block.wfFrom_blockWrite _ hb (Nat.zero_le i) (by omega)) (by omega)
    have hcells : (List.range' (i + 1) n).map (blockRead (blockWrite b i (filterStep im cfg k d (blockRead b i)).2))
        = (List.range' (i + 1) n).map (blockRead b) :=
      List.map_congr_left fun a ha => blockRead_blockWrite_other _ _ (by rw [List.mem_range'_1] at ha; omega)
    rw [hcells] at h1 h2
    refine ⟨h1, ?_, h3, fun a ha => ?_⟩
    · rw [List.range'_succ, List.map_cons]
      simp only [List.map_cons, filterRun]
      refine congrArg₂ List.cons ?_ h2
      rw [show chanRun im cfg k (n + 1) i (d, b) = chanRun im cfg k n (i + 1) (chanStep im cfg k i (d, b)) from rfl]
      exact (h4 i (by omega)).trans (blockRead_blockWrite_same i _ hb)
    · exact (h4 a (by omega)).trans (blockRead_blockWrite_other _ _ (by omega))

theorem blockCells_eq (n : Nat) (b : Block) : blockCells n b = (List.range' 0 n).map (blockRead b) := by
  rw [blockCells, List.range_eq_range']

end Sys2Proof.Machine
end

