-- ==== Sys2Proof/Laws/Numerics.lean ====
section
/-! SUPPORT. Small laws of the binary32 record: NaNs are passed on, the free NaN patterns are NaNs, the constraints on
the parameters hold of the hardware's. -/

namespace Sys2Proof.Machine

/-- The free NaN pattern is a NaN, whatever it is (R155). -/
@[simp] theorem isNaN_asNaN (raw : F) : isNaN (asNaN raw) = true := by
  unfold asNaN
  split
  · assumption
  · decide

variable (nan : NanSite → F → F → F)

theorem isNaN_fpNeg {a : F} (h : isNaN a = true) : isNaN (fpNeg nan a) = true := by simp [fpNeg, h]

/-- A sum with a NaN operand is a NaN (R155). -/
theorem isNaN_fpAdd {a b : F} (h : isNaN a = true ∨ isNaN b = true) : isNaN (fpAdd nan a b) = true := by
  rcases h with h | h <;> simp [fpAdd, h]

/-- A difference with a NaN operand is a NaN (R155). -/
theorem isNaN_fpSub {a b : F} (h : isNaN a = true ∨ isNaN b = true) : isNaN (fpSub nan a b) = true :=
  isNaN_fpAdd nan (h.imp_right (isNaN_fpNeg nan))

/-- A product with a NaN operand is a NaN (R155). -/
theorem isNaN_fpMul {a b : F} (h : isNaN a = true ∨ isNaN b = true) : isNaN (fpMul nan a b) = true := by
  rcases h with h | h <;> simp [fpMul, h]

/-- A quotient with a NaN operand is a NaN (R155). -/
theorem isNaN_fpDiv {a b : F} (h : isNaN a = true ∨ isNaN b = true) : isNaN (fpDiv nan a b) = true := by
  rcases h with h | h <;> simp [fpDiv, h]

/-- A finite value is no NaN. -/
theorem not_isNaN_of_fpFinite {a : F} (h : fpFinite a = true) : isNaN a = false := by
  simp only [fpFinite, bne_iff_ne, ne_eq] at h
  simp [isNaN, h]

/-- A finite value is no infinity. -/
theorem not_isInf_of_fpFinite {a : F} (h : fpFinite a = true) : isInf a = false := by
  simp only [fpFinite, bne_iff_ne, ne_eq] at h
  simp [isInf, h]

/-- Every pattern is finite, an infinity or a NaN, and only one of them. -/
theorem fpFinite_eq (a : F) : fpFinite a = (!isNaN a && !isInf a) := by
  unfold fpFinite isNaN isInf bne
  cases expField a == 255 <;> cases fracField a == 0 <;> rfl

/-- The product of finite values is the exact product, rounded once (R152). -/
theorem fpMul_finite {a b : F} (ha : fpFinite a = true) (hb : fpFinite b = true) :
    fpMul nan a b = roundQuotient (signBit a != signBit b) (magnitude a * magnitude b) (2 ^ 150 * 2 ^ 150) := by
  simp [fpMul, not_isNaN_of_fpFinite ha, not_isNaN_of_fpFinite hb, not_isInf_of_fpFinite ha, not_isInf_of_fpFinite hb]

/-- The sum of finite values is the exact sum, rounded once, but for the sign of an exact zero (R152, R156). -/
theorem fpAdd_finite {a b : F} (ha : fpFinite a = true) (hb : fpFinite b = true) :
    fpAdd nan a b =
      if scaledInt a + scaledInt b = 0 then signedZero (signBit a && signBit b)
      else roundQuotient (decide (scaledInt a + scaledInt b < 0)) (scaledInt a + scaledInt b).natAbs (2 ^ 150) := by
  simp [fpAdd, not_isNaN_of_fpFinite ha, not_isNaN_of_fpFinite hb, not_isInf_of_fpFinite ha, not_isInf_of_fpFinite hb]

/-- The quotient of finite values by a nonzero one is the exact quotient, rounded once (R152). -/
theorem fpDiv_finite {a b : F} (ha : fpFinite a = true) (hb : fpFinite b = true) (hz : isZero b = false) :
    fpDiv nan a b = roundQuotient (signBit a != signBit b) (magnitude a) (magnitude b) := by
  simp [fpDiv, not_isNaN_of_fpFinite ha, not_isNaN_of_fpFinite hb, not_isInf_of_fpFinite ha, not_isInf_of_fpFinite hb, hz]

/-- The fixture meets R6's constraints. -/
theorem configValid_fixture : configValid hardwareNum Config.fixture = true := by decide +kernel

/-- The hardware's parameters meet R6's constraints. -/
theorem configValid_buildConfig : configValid hardwareNum buildConfig = true := by
  unfold buildConfig
  split
  · assumption
  · exact configValid_fixture

/-- What R6's constraints say, one by one. -/
theorem configValid_iff {nm : Numerics} {c : Config} :
    configValid nm c = true ↔ 1 ≤ c.N ∧ validQ nm c.FS = true ∧ validQ nm c.inScale = true ∧ validQ nm c.outScale = true
      ∧ validF nm c.FS c.f0Default = true ∧ validQ nm c.q0Default = true := by
  simp [configValid, and_assoc]

end Sys2Proof.Machine
end

