-- ==== Sys2Proof/Laws/PerInstr.lean ====
section
/-! SUPPORT. Facts about every operation as syntax, one lemma per constructor. -/

namespace Sys2Proof.Laws.EncodeFits

/-- The encoder gives a word its port can carry. -/
def Statement (i : Instr) : Prop := (encode i).wf = true

theorem setf (v : F) : Statement (.setf v) := by
  have h : ((0#1) ++ v).toNat < 2 ^ 33 := ((0#1) ++ v).isLt
  simp only [Statement, encode, Frame.wf, Port.width, h, decide_true, beq_self_eq_true, Bool.and_self]

theorem setq (v : F) : Statement (.setq v) := by
  have h : ((1#1) ++ v).toNat < 2 ^ 33 := ((1#1) ++ v).isLt
  simp only [Statement, encode, Frame.wf, Port.width, h, decide_true, beq_self_eq_true, Bool.and_self]

theorem procRun : Statement .procRun := rfl
theorem procSkipB : Statement .procSkipB := rfl
theorem procSkip0 : Statement .procSkip0 := rfl
theorem procSkip1 : Statement .procSkip1 := rfl
theorem reset : Statement .reset := rfl

end Sys2Proof.Laws.EncodeFits
end

