-- ==== Sys2Proof/Laws/Step.lean ====
section
/-! SUPPORT. What a step can do, said once: which word it takes, and what comes of it. -/

namespace Sys2Proof.Machine

/-! ### Arbitration -/

@[simp] theorem nextSlot_nil : nextSlot [] = .nothing [] := rfl
@[simp] theorem nextSlot_quiet (rest : List Input) : nextSlot (.quiet :: rest) = .nothing rest := rfl
@[simp] theorem nextSlot_word (f : Frame) (p : Supply) (pace : Pace) (rest : List Input) :
    nextSlot (.word f p pace :: rest) = .offered ⟨f, p, pace⟩ rest := rfl
@[simp] theorem nextSlot_input (o : Offer) (rest : List Input) : nextSlot (o.input :: rest) = .offered o rest := rfl
@[simp] theorem nextSlot_together (offers : List Offer) (rest : List Input) :
    nextSlot (.together offers :: rest) = togetherSlot offers rest := rfl

theorem asksReset_iff {o : Offer} : o.asksReset = true ↔ decode o.frame = .ok .reset := by
  unfold Offer.asksReset
  cases decode o.frame with
  | ok i => simp
  | error e => simp

/-- Arbitration keeps RESET alone, or everything where no RESET is asked for. -/
theorem arbitrate_cases (offers : List Offer) :
    (∃ o ∈ offers, o.asksReset = true ∧ arbitrate offers = [o]) ∨
    ((∀ o ∈ offers, o.asksReset = false) ∧ arbitrate offers = offers) := by
  unfold arbitrate
  cases h : offers.find? Offer.asksReset with
  | some o => exact .inl ⟨o, List.mem_of_find?_eq_some h, List.find?_some h, rfl⟩
  | none => exact .inr ⟨fun o ho => by simpa using List.find?_eq_none.1 h o ho, rfl⟩

/-- The only clash is two words at one port. -/
theorem nextSlot_eq_twice {events : List Input} (h : nextSlot events = .twice) :
    ∃ offers rest, events = .together offers :: rest ∧ portsDistinct offers = false := by
  unfold nextSlot at h
  split at h
  · cases h
  · cases h
  · cases h
  · next offers rest =>
    refine ⟨offers, rest, rfl, ?_⟩
    unfold togetherSlot at h
    split at h
    · split at h <;> cases h
    · next hp => simpa using hp

/-! ### One step -/

theorem issue_atomic (i : Instr) (s : State) : issue .atomic i s = exec i s := by simp [issue]

theorem issue_of_ne_procRun (pace : Pace) {i : Instr} (s : State) (h : i ≠ .procRun) : issue pace i s = exec i s := by
  simp [issue, h]

theorem issue_stepwise_procRun (s : State) : issue .stepwise .procRun s = beginProcRun s := by simp [issue]

/-- A tick while BUSY is a DeadlineMiss at either pace (R183). -/
theorem issue_busy {pace : Pace} {i : Instr} {s : State} (hi : isTick i = true) (hb : s.seq.phase = .busy) :
    issue pace i s = .fault .deadlineMiss := by
  unfold issue
  split
  · exact whenReady_busy hb
  · cases i <;> first | exact whenReady_busy hb | cases hi

/-- An issued operation faults only if it is a tick while BUSY. -/
theorem issue_eq_fault {pace : Pace} {i : Instr} {s : State} {r : Fault} (h : issue pace i s = .fault r) :
    r = .deadlineMiss ∧ isTick i = true ∧ s.seq.phase = .busy := by
  unfold issue at h
  split at h
  · next hpi =>
    obtain ⟨-, rfl⟩ := hpi
    exact ⟨(whenReady_eq_fault h).2, rfl, (whenReady_eq_fault h).1⟩
  · cases i <;> first | exact ⟨(whenReady_eq_fault h).2, rfl, (whenReady_eq_fault h).1⟩ | cases h

/-- An operation, once issued, is never refused. -/
theorem issue_ne_refused {pace : Pace} {i : Instr} {s : State} {r : Refusal} : issue pace i s ≠ .refused r := by
  unfold issue
  split
  · exact whenReady_ne_refused
  · cases i <;> first | exact whenReady_ne_refused | (intro h; cases h)

theorem step_of_nothing {s : State} {rest : List Input} (h : nextSlot s.inputs = .nothing rest) :
    step s = ownMove hardware (takeInput rest s) := by
  rw [step, h]

theorem step_of_offered {s : State} {o : Offer} {rest : List Input} (h : nextSlot s.inputs = .offered o rest) :
    step s = takeOffer o (takeInput rest s) := by
  rw [step, h]

theorem step_of_twice {s : State} (h : nextSlot s.inputs = .twice) : step s = .refused .portTakenTwice := by
  rw [step, h]

theorem takeInput_nil {s : State} (h : s.inputs = []) : takeInput [] s = s := by
  unfold takeInput
  rw [← h]

/-- With no event left the hardware makes its own move. -/
theorem step_nil {s : State} (h : s.inputs = []) : step s = ownMove hardware s := by
  rw [step_of_nothing (rest := []) (by rw [h, nextSlot_nil]), takeInput_nil h]

/-- In a quiet slot too. -/
theorem step_quiet {s : State} {rest : List Input} (h : s.inputs = .quiet :: rest) :
    step s = ownMove hardware (takeInput rest s) :=
  step_of_nothing (by rw [h, nextSlot_quiet])

/-- A word that decodes, with blocks that fit it, is issued. -/
theorem step_offered {s : State} {o : Offer} {rest : List Input} {i : Instr}
    (h : nextSlot s.inputs = .offered o rest) (hdec : decode o.frame = .ok i) (hp : o.supply.wf s.cfg.N i = true) :
    step s = issue o.pace i (place o.supply (takeInput rest s)) := by
  rw [step_of_offered h, takeOffer]
  simp only [hdec, takeInput_cfg, hp, if_true]

theorem step_word {s : State} {frame : Frame} {p : Supply} {pace : Pace} {rest : List Input} {i : Instr}
    (h : s.inputs = .word frame p pace :: rest) (hdec : decode frame = .ok i) (hp : p.wf s.cfg.N i = true) :
    step s = issue pace i (place p (takeInput rest s)) :=
  step_offered (o := ⟨frame, p, pace⟩) (by rw [h, nextSlot_word]) hdec hp

theorem nextOperation_of_offered {s : State} {o : Offer} {rest : List Input} (h : nextSlot s.inputs = .offered o rest) :
    nextOperation s = o.operation := by
  rw [nextOperation, h]

theorem Offer.operation_of_decode {o : Offer} {i : Instr} (h : decode o.frame = .ok i) : o.operation = some i := by
  rw [Offer.operation, h]

/-- The three ways a step gives a next state: the hardware's own move where the host asks for nothing, an operation
done whole, or the beginning of a call whose transitions are taken one by one. -/
inductive StepCase (s t : State) : Prop where
  | own (rest : List Input) (hop : nextOperation s = none) (h : ownMove hardware (takeInput rest s) = .next t)
  | whole (o : Offer) (rest : List Input) (i : Instr) (hslot : nextSlot s.inputs = .offered o rest)
      (hdec : decode o.frame = .ok i) (hop : nextOperation s = some i) (hp : o.supply.wf s.cfg.N i = true)
      (h : exec i (place o.supply (takeInput rest s)) = .next t)
  | begun (o : Offer) (rest : List Input) (hslot : nextSlot s.inputs = .offered o rest)
      (hdec : decode o.frame = .ok .procRun) (hop : nextOperation s = some .procRun)
      (hp : o.supply.wf s.cfg.N .procRun = true) (h : s.seq.phase = .ready)
      (ht : t = procBegin (place o.supply (takeInput rest s)))

/-- What a step can do that gives a next state. -/
theorem step_eq_next {s t : State} (h : step s = .next t) : StepCase s t := by
  cases hslot : nextSlot s.inputs with
  | nothing rest =>
    rw [step_of_nothing hslot] at h
    exact .own rest (by rw [nextOperation, hslot]) h
  | twice => rw [step_of_twice hslot] at h; cases h
  | offered o rest =>
    rw [step_of_offered hslot, takeOffer] at h
    have hop := nextOperation_of_offered hslot
    split at h
    · next i hdec =>
      rw [Offer.operation_of_decode hdec] at hop
      split at h
      · next hp =>
        unfold issue at h
        split at h
        · next hpi =>
          obtain ⟨-, rfl⟩ := hpi
          obtain ⟨hr, ht⟩ := whenReady_eq_next h
          exact .begun o rest hslot hdec hop hp (by simpa using hr) ht
        · exact .whole o rest i hslot hdec hop hp h
      · cases h
    · next hdec => exact .own rest (by rw [hop, Offer.operation, hdec]) h
    · cases h
    · cases h

/-- A step faults only where the sequencer stands outside its positions, or where a tick comes while BUSY. -/
theorem step_eq_fault {s : State} {r : Fault} (h : step s = .fault r) :
    (r = .noSuchCell ∧ s.seq.phase = .busy ∧ s.cfg.N ≤ s.seq.i ∧ ¬(s.seq.c = .ch1 ∧ s.seq.i = s.cfg.N)) ∨
    (r = .deadlineMiss ∧ TickWhileBusy s) := by
  have own : ∀ rest, ownMove hardware (takeInput rest s) = .fault r →
      (r = .noSuchCell ∧ s.seq.phase = .busy ∧ s.cfg.N ≤ s.seq.i ∧ ¬(s.seq.c = .ch1 ∧ s.seq.i = s.cfg.N)) := by
    intro rest hm
    unfold ownMove at hm
    split at hm
    · cases hm
    · next hb => exact ⟨(sequencerMove_eq_fault hm).1, hb, (sequencerMove_eq_fault hm).2⟩
  cases hslot : nextSlot s.inputs with
  | nothing rest => rw [step_of_nothing hslot] at h; exact .inl (own rest h)
  | twice => rw [step_of_twice hslot] at h; cases h
  | offered o rest =>
    rw [step_of_offered hslot, takeOffer] at h
    split at h
    · next i hdec =>
      split at h
      · obtain ⟨hr, hi, hb⟩ := issue_eq_fault h
        exact .inr ⟨hr, hb, i, (nextOperation_of_offered hslot).trans (Offer.operation_of_decode hdec), hi⟩
      · cases h
    · exact .inl (own rest h)
    · cases h
    · cases h

/-- An invariant that reset has, whatever the host's events, and that every step keeps, holds of every state a run
reaches. -/
theorem holds_of_reachable {Q : State → Prop} (h0 : ∀ events, Q { State.reset with inputs := events })
    (hstep : ∀ s t, Q s → step s = .next t → Q t) {s : State} (h : Reachable s) : Q s := by
  induction h with
  | reset events => exact h0 events
  | step _ hs ih => exact hstep _ _ ih hs

@[simp] theorem runSteps_zero (s : State) : runSteps 0 s = .next s := rfl

/-- One more step in front of a run. -/
theorem runSteps_succ_of_next {k : Nat} {s t : State} (h : step s = .next t) : runSteps (k + 1) s = runSteps k t := by
  rw [runSteps, h]

/-- Two runs, one after the other. -/
theorem runSteps_add {j k : Nat} {s t : State} (h : runSteps j s = .next t) : runSteps (j + k) s = runSteps k t := by
  induction j generalizing s with
  | zero => obtain rfl : s = t := by simpa using h
            rw [Nat.zero_add]
  | succ j ih =>
    rw [runSteps] at h
    split at h
    · next u hu => rw [Nat.succ_add, runSteps_succ_of_next hu]; exact ih h
    · cases h
    · cases h

/-- The host's run of the machine is this one. -/
theorem core_run_eq (k : Nat) (s : State) : Host.Core.run Sys2Proof.core k s = runSteps k s := by
  induction k generalizing s with
  | zero => rfl
  | succ k ih =>
    have ih' : ∀ s : Sys2Proof.core.State, Host.Core.run Sys2Proof.core k s = runSteps k s := ih
    have hstep : Sys2Proof.core.step s = step s := rfl
    rw [runSteps]
    refine (Host.Core.run.eq_2 Sys2Proof.core s k).trans ?_
    rw [hstep]
    cases step s with
    | next t => exact ih t
    | fault r => rfl
    | refused r => rfl

end Sys2Proof.Machine
end

