-- ==== Sys2Proof/Tests/Slice0.lean ====
section
/-! SUPPORT. The model's own tests. Expected results are the spec's: the vectors of spec/95 (named V-… there) and its
encodings; none is the model's own answer. -/

namespace Sys2Proof.Machine.Tests

/-! ### Fixtures of spec/95 section 1 -/

/-- TESTCFG-A or TESTCFG-B (R8), by its output scale. -/
def cfgOf (n : Nat) (outScale : F) : Config := ⟨n, 0x473B8000#32, 0x38000000#32, outScale, 0x447A0000#32, 0x3F3504F3#32⟩

def outA : F := 0x46FFFE00#32
def outB : F := 0x47000000#32

/-- A READY state with `C` set directly ("forced start"), zero delay registers and the given blocks. -/
def start (n : Nat) (outScale : F) (c : CoefficientSet) (b0 b1 : Block) : State :=
  { cfg := cfgOf n outScale, P := ⟨0x447A0000#32, 0x3F3504F3#32⟩, C := c, K := ⟨0, 0, 0, 0, 0⟩,
    d0 := ⟨0, 0, 0, 0⟩, d1 := ⟨0, 0, 0, 0⟩, seq := ⟨.ready, .ch0, 0⟩, mem := ⟨b0, b1⟩, lent := ⟨[], []⟩,
    inputs := [], outputs := [], free := 0 }

/-- The same while a call is in flight, at a given position. -/
def inFlight (s : State) (k : CoefficientSet) (c : Channel) (i : Nat) : State :=
  { s with K := k, seq := ⟨.busy, c, i⟩, lent := s.mem }

/-- The coefficient set K1 of spec/95. -/
def k1 : CoefficientSet := ⟨0x3F000000#32, 0x3E800000#32, 0x3E000000#32, 0xBF000000#32, 0x3E800000#32⟩

/-- V-RC row 4. -/
def row4 : CoefficientSet := ⟨0x3E7FFFFF#32, 0xBEFFFFFF#32, 0x3E7FFFFF#32, 0x333BBD2E#32, 0x00000000#32⟩

/-- The next state, if there is one. -/
def next? (o : Host.Outcome State Fault Refusal) : Option State :=
  match o with
  | .next t => some t
  | .fault _ => none
  | .refused _ => none

/-- The fault, if there is one. -/
def fault? (o : Host.Outcome State Fault Refusal) : Option Fault :=
  match o with
  | .next _ => none
  | .fault r => some r
  | .refused _ => none

/-- The refusal, if there is one. -/
def refusal? (o : Host.Outcome State Fault Refusal) : Option Refusal :=
  match o with
  | .next _ => none
  | .fault _ => none
  | .refused r => some r

/-- TESTNUM-CR (R154) at the angles of V-RC rows 1 to 7 and 9, with the NaN `0x7FC00000` (R155). -/
def vectorNum : Numerics :=
  binary32 (fun _ _ _ => 0x7FC00000#32)
    (fun x => if x = 0x3E060A92#32 then 0x3E05A8A9#32 else if x = 0x3FC90FDB#32 then 0x3F800000#32 else 0#32)
    (fun x => if x = 0x3E060A92#32 then 0x3F7DCF55#32 else if x = 0x3FC90FDB#32 then 0xB33BBD2E#32 else 0x3F800000#32)

/-- SAT16 (R160). -/
def sat16 (y : F) : Cell := if isNaN y then 0#16 else if signBit y then 0x8000#16 else 0x7FFF#16

/-- WRAP16 (R160). -/
def wrap16 (y : F) : Cell :=
  match fpTrunc y with
  | some t => BitVec.ofInt 16 t
  | none => 0#16

/-! ### Well-formedness: an ill-formed term for each check, refused -/

theorem test_frame_wrong_width : (Frame.mk .ctl 32 0).wf = false := by decide
theorem test_frame_bit_above : (Frame.mk .aud 2 4).wf = false := by decide
theorem test_block_not_rising : Block.wf 4 [(2, 1#16), (1, 1#16)] = false := by decide
theorem test_block_repeats : Block.wf 4 [(2, 1#16), (2, 1#16)] = false := by decide
theorem test_block_lists_zero : Block.wf 4 [(1, 0#16)] = false := by decide
theorem test_block_too_long : Block.wf 4 [(4, 1#16)] = false := by decide
theorem test_memory_ill : Memory.wf 4 ⟨[], [(4, 1#16)]⟩ = false := by decide
theorem test_supply_missing : Supply.wf 4 .procRun ⟨some [], none⟩ = false := by decide
theorem test_supply_unannounced : Supply.wf 4 .procSkip0 ⟨some [], some []⟩ = false := by decide
theorem test_supply_ill_block : Supply.wf 4 .procRun ⟨some [(9, 1#16)], some []⟩ = false := by decide
theorem test_supply_fits : Supply.wf 4 .procSkip1 ⟨some [(3, 1#16)], none⟩ = true := by decide

/-! ### Decoding: the words of V-ENC, written from R81, R83, R86 -/

theorem test_decode_setf : decode ⟨.ctl, 33, 0x0447A0000⟩ = .ok (.setf 0x447A0000#32) := by rfl
theorem test_decode_setq : decode ⟨.ctl, 33, 0x1447A0000⟩ = .ok (.setq 0x447A0000#32) := by rfl
theorem test_decode_setq_minus_one : decode ⟨.ctl, 33, 0x1BF800000⟩ = .ok (.setq 0xBF800000#32) := by rfl
theorem test_decode_setf_nan : decode ⟨.ctl, 33, 0x07FC00000⟩ = .ok (.setf 0x7FC00000#32) := by rfl
theorem test_decode_run : decode ⟨.aud, 2, 0b11⟩ = .ok .procRun := by rfl
theorem test_decode_skip0 : decode ⟨.aud, 2, 0b10⟩ = .ok .procSkip0 := by rfl
theorem test_decode_skip1 : decode ⟨.aud, 2, 0b01⟩ = .ok .procSkip1 := by rfl
theorem test_decode_skipB : decode ⟨.aud, 2, 0b00⟩ = .ok .procSkipB := by rfl
theorem test_decode_reset : decode ⟨.rst, 1, 1⟩ = .ok .reset := by rfl
theorem test_decode_rst_low : decode ⟨.rst, 1, 0⟩ = .error .noRequest := by rfl
theorem test_decode_narrow_command : decode ⟨.ctl, 32, 0⟩ = .error .wrongWidth := by rfl
theorem test_decode_wide_header : decode ⟨.aud, 2, 7⟩ = .error .bitsAboveWidth := by rfl
theorem test_table_words :
    [decodeTableWord 33 0x0447A0000, decodeTableWord 40 0x13F000000, decodeTableWord 2 3, decodeTableWord 8 3,
      decodeTableWord 8 0, decodeTableWord 8 2, decodeTableWord 8 1, decodeTableWord 1 1] =
    [some (.setf 0x447A0000#32), some (.setq 0x3F000000#32), some .procRun, some .procRun, some .procSkipB,
      some .procSkip0, some .procSkip1, some .reset] := by rfl

/-! ### Numerics -/

/-- Sample cells (R85, V-ENC). -/
theorem test_sample_cells :
    [0x0000#16, 0xFFFF#16, 0x4000#16, 0xC000#16, 0x7FFF#16, 0x8000#16, 0xCFC7#16].map sampleInt =
      [0, -1, 16384, -16384, 32767, -32768, -12345] := by decide +kernel

/-- V-I2F. -/
theorem test_dequantise :
    [0x0000#16, 0x0001#16, 0xFFFF#16, 0x4000#16, 0xC000#16, 0x7FFF#16, 0x8000#16, 0x3039#16, 0xCFC7#16].map
        (dequantise hardwareNum 0x38000000#32) =
      [0x00000000#32, 0x38000000#32, 0xB8000000#32, 0x3F000000#32, 0xBF000000#32, 0x3F7FFE00#32, 0xBF800000#32,
        0x3EC0E400#32, 0xBEC0E400#32] := by decide +kernel

/-- V-Q, the rows in range. -/
theorem test_quantise_in_range :
    [0x80000000#32, 0x3F7FFFFF#32, 0xBF7FFFFF#32, 0xBF800000#32, 0x3FC00000#32, 0xC0200000#32, 0x46FFFFFF#32,
        0xC7000000#32, 0xC70000FF#32].map (quantise hardware) =
      [0x0000#16, 0x0000#16, 0x0000#16, 0xFFFF#16, 0x0001#16, 0xFFFE#16, 0x7FFF#16, 0x8000#16, 0x8000#16] := by
  decide +kernel

/-- V-Q, the rows out of range, with SAT16 and with WRAP16. -/
theorem test_quantise_overflow :
    [0x47000000#32, 0xC7000100#32, 0x47400000#32, 0x47800000#32, 0xFF800000#32, 0x7FC00000#32].map
        (fun y => (quantise ⟨vectorNum, sat16⟩ y, quantise ⟨vectorNum, wrap16⟩ y)) =
      [(0x7FFF#16, 0x8000#16), (0x8000#16, 0x7FFF#16), (0x7FFF#16, 0xC000#16), (0x7FFF#16, 0x0000#16),
        (0x8000#16, 0x0000#16), (0x0000#16, 0x0000#16)] := by decide +kernel

/-- V-FP. -/
theorem test_special_values :
    [vectorNum.fadd 0x3F800000#32 0x4C78F57F#32, vectorNum.fsub 0x3F800000#32 0x7F800000#32,
      vectorNum.fdiv 0xFF800000#32 0x7F800000#32, vectorNum.fdiv 0xBFFEE7AA#32 0x7F800000#32,
      vectorNum.fmul 0x40000000#32 0x7F7FFFFF#32, vectorNum.fmul 0x40C90FDB#32 0x00000001#32,
      vectorNum.fdiv 0x00000006#32 0x473B8000#32, vectorNum.fmul 0x7FC00000#32 0x00000000#32,
      vectorNum.fmul 0xBF000000#32 0x00000000#32, vectorNum.fadd 0x80000000#32 0x80000000#32,
      vectorNum.fsub 0x80000000#32 0x00000000#32, vectorNum.fsub 0x80000000#32 0x80000000#32,
      vectorNum.fmul 0x3DFFFFFF#32 0x47000000#32] =
    [0x4C78F57F#32, 0xFF800000#32, 0x7FC00000#32, 0x80000000#32, 0x7F800000#32, 0x00000006#32, 0x00000000#32,
      0x7FC00000#32, 0x80000000#32, 0x80000000#32, 0x80000000#32, 0x00000000#32, 0x457FFFFF#32] := by decide +kernel

/-- V-VAL, SETF column, for `FS = 48000.0`. -/
theorem test_validF :
    [0x00000000#32, 0x80000000#32, 0x00000001#32, 0x80000001#32, 0x447A0000#32, 0x46BB7FFF#32, 0x46BB8000#32,
        0x46BB8001#32, 0x7F800000#32, 0x7FC00000#32, 0xFFC00000#32, 0x7F800001#32, 0xBF800000#32].map
        (validF hardwareNum 0x473B8000#32) =
      [false, false, true, false, true, true, false, false, false, false, false, false, false] := by decide +kernel

/-- V-VAL, SETQ column. -/
theorem test_validQ :
    [0x00000000#32, 0x80000000#32, 0x00000001#32, 0x80000001#32, 0x46BB8000#32, 0x7F7FFFFF#32, 0x7F800000#32,
        0xFF800000#32, 0x7FC00000#32, 0xFFC00000#32, 0x7F800001#32, 0xBF800000#32].map (validQ hardwareNum) =
      [false, false, true, false, true, true, false, false, false, false, false, false] := by decide +kernel

/-- V-RC rows 1, 4, 6, 7, 9 and 10. -/
theorem test_recompute :
    [(0x447A0000#32, 0x3F3504F3#32), (0x463B8000#32, 0x3F000000#32), (0x463B8000#32, 0x3F800000#32),
        (0x447A0000#32, 0x00000001#32), (0x00000001#32, 0x3F800000#32), (0x447A0000#32, 0x7F7FFFFF#32)].map
        (fun x => recompute vectorNum x.1 x.2 0x473B8000#32) =
      [⟨0x3F695DBD#32, 0xBFE95DBD#32, 0x3F695DBD#32, 0xBFE85D18#32, 0x3F54BCC8#32⟩, row4,
        ⟨0x3EAAAAAA#32, 0xBF2AAAAA#32, 0x3EAAAAAA#32, 0x337A5193#32, 0x3EAAAAAB#32⟩,
        ⟨0x00000000#32, 0x80000000#32, 0x00000000#32, 0x80000000#32, 0x7FC00000#32⟩,
        ⟨0x3F800000#32, 0xC0000000#32, 0x3F800000#32, 0xC0000000#32, 0x3F800000#32⟩,
        ⟨0x3F7EE7AA#32, 0xBFFEE7AA#32, 0x3F7EE7AA#32, 0xBFFDCF55#32, 0x3F800000#32⟩] := by decide +kernel

/-! ### The operations -/

/-- P1 step 3: SETF 24000.0 is rejected and changes nothing. -/
theorem test_setf_rejected :
    next? (exec (.setf 0x46BB8000#32) (start 4 outB k1 [] [])) =
      some { start 4 outB k1 [] [] with outputs := [.control 1#1] } := by decide +kernel

/-- P1 step 4: SETF 12000.0 stores the frequency, answers OK and leaves the latch alone. -/
theorem test_setf_accepted :
    (next? (exec (.setf 0x463B8000#32) (inFlight (start 4 outB k1 [] []) row4 .ch0 2))).map
        (fun t => (t.P, t.outputs, t.K)) =
      some (⟨0x463B8000#32, 0x3F3504F3#32⟩, [.control 0#1], row4) := by decide +kernel

/-- P1 step 2: SETQ -1.0 is rejected and changes nothing. -/
theorem test_setq_rejected :
    next? (exec (.setq 0xBF800000#32) (start 4 outB k1 [] [])) =
      some { start 4 outB k1 [] [] with outputs := [.control 1#1] } := by decide +kernel

/-- P1 step 5: SETQ 0.5 at 12000.0, with the vectors' numerics, gives V-RC row 4. -/
theorem test_setq_accepted :
    (fun t : State => (t.P, t.C, t.outputs))
        (setq vectorNum 0x3F000000#32 { start 4 outB k1 [] [] with P := ⟨0x463B8000#32, 0x3F3504F3#32⟩ }) =
      (⟨0x463B8000#32, 0x3F000000#32⟩, row4, [.control 0#1]) := by decide +kernel

/-- P2 step 1: both channels of one block of 4, returned and kept in place. -/
theorem test_run_two_channels :
    (next? (exec .procRun (start 4 outB k1 [(0, 0x4000#16)] [(0, 0xC000#16), (1, 0x2000#16)]))).map
        (fun t => (t.outputs, t.d0, t.d1)) =
      some ([.audio 1#1 (some ⟨[(0, 0x2000#16), (1, 0x2000#16), (2, 0x1000#16)],
          [(0, 0xE000#16), (1, 0xF000#16), (3, 0x0800#16)]⟩)],
        ⟨0#32, 0#32, 0#32, 0x3E000000#32⟩, ⟨0#32, 0#32, 0x3D800000#32, 0#32⟩) := by decide +kernel

/-- V-P6, the feedback taken before quantisation, under WRAP16. -/
theorem test_run_overflow_feeds_back_unclamped :
    (fun t : State => (t.mem.b0, t.d0))
        (procCall ⟨vectorNum, wrap16⟩
          (start 4 outB ⟨0x3F800000#32, 0#32, 0#32, 0xBFC00000#32, 0#32⟩ [(0, 0x4000#16)] [])) =
      ([(0, 0x4000#16), (1, 0x6000#16), (2, 0x9000#16), (3, 0xD800#16)],
        ⟨0#32, 0#32, 0x3FD80000#32, 0x3F900000#32⟩) := by decide +kernel

/-- V-S: one SAMPLE, the new state and the cell written. -/
theorem test_sample :
    (next? (step { inFlight (start 4 outB row4 [(1, 0xC000#16)] []) row4 .ch0 1 with
          d0 := ⟨0x3F000000#32, 0#32, 0x3DFFFFFF#32, 0#32⟩ })).map (fun t => (t.d0, t.mem.b0, t.seq)) =
      some (⟨0xBF000000#32, 0x3F000000#32, 0xBEBFFFFF#32, 0x3DFFFFFF#32⟩, [(1, 0xD001#16)], ⟨.busy, .ch0, 2⟩) := by
  decide +kernel

/-- V-P5 in TESTCFG-A with an identity filter: unequal scales, truncation toward zero. -/
theorem test_run_unequal_scales :
    (next? (exec .procRun (start 4 outA ⟨0x3F800000#32, 0#32, 0#32, 0#32, 0#32⟩
          [(0, 0xFFFF#16), (1, 0xFFFD#16), (2, 0x8000#16), (3, 0x7FFF#16)] []))).map (fun t => t.mem.b0) =
      some [(1, 0xFFFE#16), (2, 0x8001#16), (3, 0x7FFE#16)] := by decide +kernel

/-- V-P7: a skip answers `done = 0` and changes nothing, the supplied block included. -/
theorem test_skip1 :
    next? (exec .procSkip1 (start 4 outB k1 [(0, 1#16), (1, 2#16), (2, 3#16), (3, 4#16)] [])) =
      some { start 4 outB k1 [(0, 1#16), (1, 2#16), (2, 3#16), (3, 4#16)] [] with outputs := [.audio 0#1 none] } := by
  decide +kernel

/-- V-P7. -/
theorem test_skip0 :
    next? (exec .procSkip0 (start 4 outB k1 [] [(0, 5#16)])) =
      some { start 4 outB k1 [] [(0, 5#16)] with outputs := [.audio 0#1 none] } := by decide +kernel

/-- V-P7. -/
theorem test_skipB :
    next? (exec .procSkipB (start 4 outB k1 [] [])) = some { start 4 outB k1 [] [] with outputs := [.audio 0#1 none] } := by
  decide +kernel

/-- R183: a tick while BUSY, of either kind, is a DeadlineMiss. -/
theorem test_tick_while_busy :
    [Instr.procRun, .procSkipB, .procSkip0, .procSkip1].map
        (fun i => fault? (exec i (inFlight (start 4 outB k1 [] []) k1 .ch0 1))) =
      [some .deadlineMiss, some .deadlineMiss, some .deadlineMiss, some .deadlineMiss] := by decide +kernel

/-- P4 step 3: RESET in mid-run: defaults, zero delay registers, READY, no answer. -/
theorem test_reset :
    (next? (exec .reset { start 4 outB k1 [] [] with d0 := ⟨1#32, 2#32, 3#32, 4#32⟩, P := ⟨5#32, 6#32⟩ })).map
        (fun t => (t.P, t.d0, t.seq.phase, t.outputs)) =
      some (⟨0x447A0000#32, 0x3F3504F3#32⟩, ⟨0#32, 0#32, 0#32, 0#32⟩, .ready, []) := by decide +kernel

/-- The position `(1, N)`: PROC.END, the blocks returned (R130). -/
theorem test_end :
    (next? (step (inFlight (start 4 outB k1 [(0, 7#16)] []) k1 .ch1 4))).map (fun t => (t.seq.phase, t.outputs)) =
      some (.ready, [.audio 1#1 (some ⟨[(0, 7#16)], []⟩)]) := by decide +kernel

/-! ### Steps -/

/-- P3 step 2: a call whose transitions are taken one by one begins: `K` is `C`, position (0, 0). -/
theorem test_step_begin :
    (next? (step { start 4 outB row4 [] [] with
          inputs := [.word ⟨.aud, 2, 3⟩ ⟨some [(0, 0x4000#16)], some []⟩ .stepwise] })).map
        (fun t => (t.K, t.seq, t.mem.b0)) = some (row4, ⟨.busy, .ch0, 0⟩, [(0, 0x4000#16)]) := by decide +kernel

/-- A block of another length cannot be presented (R56). -/
theorem test_step_wrong_length :
    refusal? (step { start 4 outB k1 [] [] with inputs := [.word ⟨.aud, 2, 3⟩ ⟨some [(4, 1#16)], some []⟩ .atomic] }) =
      some .notPresentable := by decide +kernel

/-- A command word is 33 bits (R88). -/
theorem test_step_wrong_width :
    refusal? (step { start 4 outB k1 [] [] with inputs := [.word ⟨.ctl, 32, 0⟩ ⟨none, none⟩ .atomic] }) =
      some .notAWord := by decide +kernel

/-- The reset input at 0 asks for nothing (R80). -/
theorem test_step_rst_low :
    next? (step { start 4 outB k1 [] [] with inputs := [.word ⟨.rst, 1, 0⟩ ⟨none, none⟩ .atomic] }) =
      some (start 4 outB k1 [] []) := by decide +kernel

/-- The three words of R186: a setter, a tick and RESET. -/
def setfOffer : Offer := ⟨⟨.ctl, 33, 0x0463B8000⟩, ⟨none, none⟩, .atomic⟩
def tickOffer : Offer := ⟨⟨.aud, 2, 3⟩, ⟨some [(0, 0x4000#16)], some []⟩, .stepwise⟩
def rstOffer : Offer := ⟨⟨.rst, 1, 1⟩, ⟨none, none⟩, .atomic⟩

/-- R212: RESET with words at both other ports, in mid-call, is RESET alone: no answer, no DeadlineMiss, and nothing
is left of the other words. -/
theorem test_reset_overrides :
    (next? (step { inFlight (start 4 outB k1 [] []) k1 .ch0 1 with
          inputs := [.together [tickOffer, rstOffer, setfOffer]], P := ⟨5#32, 6#32⟩ })).map
        (fun t => (t.P, t.seq.phase, t.outputs, t.inputs)) =
      some (⟨0x447A0000#32, 0x3F3504F3#32⟩, .ready, [], []) := by decide +kernel

/-- R186: a setter and a tick together are taken in either order, as listed, and the other one is taken next. -/
theorem test_setter_and_tick_together :
    [[setfOffer, tickOffer], [tickOffer, setfOffer]].map (fun offers =>
        (next? (step { start 4 outB k1 [] [] with inputs := [.together offers] })).map
          (fun t => (t.P.f, t.seq.phase, t.inputs))) =
      [some (0x463B8000#32, .ready, [tickOffer.input]), some (0x447A0000#32, .busy, [setfOffer.input])] := by
  decide +kernel

/-- R220: two setters at once are refused. -/
theorem test_two_setters_at_once :
    refusal? (step { start 4 outB k1 [] [] with inputs := [.together [setfOffer, setfOffer]] }) = some .portTakenTwice := by
  decide +kernel

/-- The first word after reset runs, for each row of the table. -/
theorem test_first_word :
    [(33, 0x0447A0000), (33, 0x13F000000), (2, 3), (2, 0), (2, 2), (2, 1), (1, 1)].map
        (fun x => (next? (step (State.reset.withFetchWord x.1 x.2))).isSome) =
      [true, true, true, true, true, true, true] := by decide +kernel

/-! ### Witnesses: for each statement with hypotheses, inputs that meet all of them together -/

/-- A header with both blocks supplied, taken at a pace. -/
def tick (pace : Pace) : Input := .word ⟨.aud, 2, 3⟩ ⟨some [(0, 0x4000#16)], some []⟩ pace

/-- SETF 12000.0 and SETQ 0.5, as words. -/
def setfWord : Input := .word ⟨.ctl, 33, 0x0463B8000⟩ ⟨none, none⟩ .atomic
def setqWord : Input := .word ⟨.ctl, 33, 0x13F000000⟩ ⟨none, none⟩ .stepwise

/-- The reset input at 1, as a word. -/
def rstWord : Input := .word ⟨.rst, 1, 1⟩ ⟨none, none⟩ .atomic

/-- A READY state of the invariant: the coefficients are those of the stored parameters. -/
def derived (n : Nat) : State :=
  start n outB (recompute hardwareNum 0x447A0000#32 0x3F3504F3#32 0x473B8000#32) [(0, 7#16)] []

/-- The same in flight, at a position. -/
def derivedBusy (n : Nat) (c : Channel) (i : Nat) : State := inFlight (derived n) (derived n).C c i

/-- Both clauses of `StepRunsTheDecodedWord`. -/
theorem witness_step_runs :
    let s := start 4 outB k1 [] []
    (∀ pace, { s with inputs := [tick pace] }.inputs =
      .word ⟨.aud, 2, 3⟩ ⟨some [(0, 0x4000#16)], some []⟩ pace :: []) ∧
    decode ⟨.aud, 2, 3⟩ = .ok .procRun ∧ Supply.wf s.cfg.N .procRun ⟨some [(0, 0x4000#16)], some []⟩ = true ∧
    { s with inputs := [setqWord] }.inputs = .word ⟨.ctl, 33, 0x13F000000⟩ ⟨none, none⟩ .stepwise :: [] ∧
    decode ⟨.ctl, 33, 0x13F000000⟩ = .ok (.setq 0x3F000000#32) ∧
    Supply.wf s.cfg.N (.setq 0x3F000000#32) ⟨none, none⟩ = true ∧ Instr.setq 0x3F000000#32 ≠ .procRun :=
  ⟨fun _ => rfl, rfl, rfl, rfl, rfl, rfl, by decide⟩

/-- `PlacedWordRunsNext`, with the largest index a block of 4 can list. -/
theorem witness_placed_word :
    decodeTableWord 40 0x13F000000 = some (.setq 0x3F000000#32) ∧ decodeTableWord 8 3 = some .procRun ∧
    Memory.wf 4 (start 4 outB k1 [(3, 1#16)] []).mem = true := ⟨rfl, rfl, rfl⟩

/-- `IdleKeepsAllState`, both clauses. -/
theorem witness_idle :
    (start 4 outB k1 [] []).seq.phase = .ready ∧ (start 4 outB k1 [] []).inputs = [] ∧
    { start 4 outB k1 [] [] with inputs := [.quiet, setfWord] }.inputs = .quiet :: [setfWord] := ⟨rfl, rfl, rfl⟩

/-- `ValidityIsPositiveFiniteBelowNyquist` and `NyquistIsHalfTheRate`, at the smallest rate the latter admits. -/
theorem witness_rates :
    validQ hardwareNum 0x473B8000#32 = true ∧ validQ hardwareNum 0x00000001#32 = true ∧
    fpFinite 0x01000000#32 = true ∧ 2 ≤ expField 0x01000000#32 ∧ 2 ≤ expField 0x473B8000#32 := by decide

/-- `DegenerateSetsAreComputed`: a sine and a cosine for each clause (TESTNUM-CR, V-RC). -/
theorem witness_degenerate :
    (∃ sin cos : F → F, sin 0x3E060A92#32 = 0x3E05A8A9#32 ∧ cos 0x3E060A92#32 = 0x3F7DCF55#32) ∧
    (∃ sin cos : F → F, sin 0x00000000#32 = 0x00000000#32 ∧ cos 0x00000000#32 = 0x3F800000#32) ∧
    (∃ sin cos : F → F, sin 0x40490DB6#32 = 0x39092888#32 ∧ cos 0x40490DB6#32 = 0xBF800000#32) :=
  ⟨⟨fun _ => 0x3E05A8A9#32, fun _ => 0x3F7DCF55#32, rfl, rfl⟩, ⟨fun _ => 0x00000000#32, fun _ => 0x3F800000#32, rfl, rfl⟩,
    ⟨fun _ => 0x39092888#32, fun _ => 0xBF800000#32, rfl, rfl⟩⟩

/-- `BeginLoadsTheLatch`. -/
theorem witness_begin :
    { start 4 outB k1 [] [] with inputs := [tick .stepwise] }.inputs
      = .word ⟨.aud, 2, 3⟩ ⟨some [(0, 0x4000#16)], some []⟩ .stepwise :: [] ∧
    decode ⟨.aud, 2, 3⟩ = .ok .procRun ∧ Supply.wf 4 .procRun ⟨some [(0, 0x4000#16)], some []⟩ = true ∧
    (start 4 outB k1 [] []).seq.phase = .ready := ⟨rfl, rfl, rfl, rfl⟩

/-- `SampleFollowsTheFourSteps`, at the last index of either channel, and `EndReturnsBothBlocks`. -/
theorem witness_positions :
    (∀ c, (inFlight (start 4 outB k1 [(3, 1#16)] []) k1 c 3).seq = ⟨.busy, c, 3⟩) ∧ 3 < (cfgOf 4 outB).N ∧
    Memory.wf 4 (inFlight (start 4 outB k1 [(3, 1#16)] []) k1 .ch1 3).mem = true ∧
    (inFlight (start 4 outB k1 [] []) k1 .ch1 4).inputs = [] ∧
    (inFlight (start 4 outB k1 [] []) k1 .ch1 4).seq = ⟨.busy, .ch1, (cfgOf 4 outB).N⟩ :=
  ⟨fun _ => rfl, by decide, rfl, rfl, rfl⟩

/-- `RunFiltersBothBlocks`, and `SkipChangesNothing` for each of the three skips. -/
theorem witness_ready :
    (start 4 outB k1 [(3, 1#16)] []).seq.phase = .ready ∧ Memory.wf 4 (start 4 outB k1 [(3, 1#16)] []).mem = true ∧
    (∀ i ∈ [Instr.procSkipB, .procSkip0, .procSkip1], i = .procSkipB ∨ i = .procSkip0 ∨ i = .procSkip1) :=
  ⟨rfl, rfl, by decide⟩

/-- `TickWhileBusyIsDeadlineMiss`: each tick, and one presented at the pace stepwise. -/
theorem witness_busy_tick :
    let s := { inFlight (start 4 outB k1 [] []) k1 .ch0 1 with inputs := [tick .stepwise] }
    s.seq.phase = .busy ∧ nextSlot s.inputs = .offered tickOffer [] ∧ decode tickOffer.frame = .ok .procRun ∧
    Supply.wf s.cfg.N .procRun tickOffer.supply = true ∧
    (∀ i ∈ [Instr.procRun, .procSkipB, .procSkip0, .procSkip1],
      i = .procRun ∨ i = .procSkipB ∨ i = .procSkip0 ∨ i = .procSkip1) := ⟨rfl, rfl, rfl, rfl, by decide⟩

/-- `ResetOverridesBothPorts` and `WordsTogetherAreTakenInTurn`. -/
theorem witness_together :
    ([tickOffer, rstOffer, setfOffer].map (·.frame.port)).Nodup ∧
    (∃ o ∈ [tickOffer, rstOffer, setfOffer], decode o.frame = .ok .reset ∧ o.supply = ⟨none, none⟩) ∧
    ([tickOffer, setfOffer].map (·.frame.port)).Nodup ∧ [tickOffer, setfOffer] ≠ [] ∧
    (∀ o ∈ [tickOffer, setfOffer], decode o.frame ≠ .ok .reset) ∧
    { start 4 outB k1 [] [] with inputs := [.together [tickOffer, setfOffer], .quiet] }.inputs =
      .together [tickOffer, setfOffer] :: [.quiet] := by
  refine ⟨by decide, ⟨rstOffer, by decide, rfl, rfl⟩, by decide, by decide, fun o ho => ?_, rfl⟩
  rcases (by simpa using ho : o = tickOffer ∨ o = setfOffer) with rfl | rfl <;> (intro h; cases h)

/-- `BlockBoundaryContinuity`: blocks of 2 and of 4, with the same state. -/
theorem witness_continuity :
    let s := start 2 outB k1 [(1, 5#16)] []
    let long := start 4 outB k1 [(1, 5#16), (2, 7#16)] [(3, 9#16)]
    let second : Memory := ⟨[(0, 7#16)], [(1, 9#16)]⟩
    s.seq.phase = .ready ∧ long.seq.phase = .ready ∧ long.cfg = { s.cfg with N := 2 * s.cfg.N } ∧ long.C = s.C ∧
    long.d0 = s.d0 ∧ long.d1 = s.d1 ∧ Memory.wf s.cfg.N s.mem = true ∧ Memory.wf s.cfg.N second = true ∧
    Memory.wf long.cfg.N long.mem = true ∧
    (∀ c, blockCells long.cfg.N (memBlock long.mem c) =
      blockCells s.cfg.N (memBlock s.mem c) ++ blockCells s.cfg.N (memBlock second c)) :=
  ⟨rfl, rfl, rfl, rfl, rfl, rfl, rfl, rfl, rfl, fun c => by cases c <;> rfl⟩

/-- `ChannelsAreIndependent`: two states that differ in the other channel's block and registers. -/
theorem witness_independence :
    let s := start 4 outB k1 [(1, 5#16)] []
    let s' := { start 4 outB k1 [(1, 5#16)] [(2, 8#16)] with d1 := ⟨0x3F800000#32, 0, 0, 0⟩ }
    s.seq.phase = .ready ∧ s'.seq.phase = .ready ∧ s'.cfg = s.cfg ∧ s'.C = s.C ∧ delays s' .ch0 = delays s .ch0 ∧
    memBlock s'.mem .ch0 = memBlock s.mem .ch0 ∧ s' ≠ s := ⟨rfl, rfl, rfl, rfl, rfl, rfl, by decide⟩

/-- `ChannelOrderIsImmaterial`: an interleaving that is not the reference order. -/
theorem witness_order :
    [Channel.ch1, .ch0, .ch0, .ch1].count .ch0 = (start 2 outB k1 [] []).cfg.N ∧
    [Channel.ch1, .ch0, .ch0, .ch1].count .ch1 = (start 2 outB k1 [] []).cfg.N := by decide

/-- `OutputDependsOnThePastOnly`: two blocks that agree before index 2; and any at `k = 0`, equal ones at `k = N`. -/
theorem witness_past :
    let s := start 4 outB k1 [(1, 5#16)] []
    let s' := start 4 outB k1 [(1, 5#16), (2, 6#16)] []
    s.seq.phase = .ready ∧ s'.seq.phase = .ready ∧ s'.cfg = s.cfg ∧ s'.C = s.C ∧ delays s' .ch0 = delays s .ch0 ∧
    Memory.wf s.cfg.N s.mem = true ∧ Memory.wf s.cfg.N s'.mem = true ∧ 2 ≤ s.cfg.N ∧
    (∀ i, i < 0 → memRead s'.mem .ch0 i = memRead s.mem .ch0 i) ∧
    (∀ i, i < 2 → memRead s'.mem .ch0 i = memRead s.mem .ch0 i) ∧
    (∀ i, i < 4 → memRead s.mem .ch0 i = memRead s.mem .ch0 i) :=
  ⟨rfl, rfl, rfl, rfl, rfl, rfl, rfl, by decide, fun _ h => absurd h (Nat.not_lt_zero _), by decide, fun _ _ => rfl⟩

/-- `ZeroInputGivesZeroOutput`: zeros of both signs, and for its last clause all `+0.0` with an unsigned `b0`. -/
theorem witness_zero_input :
    let s := start 4 outB k1 [] []
    s.seq.phase = .ready ∧ configValid hardwareNum s.cfg = true ∧ FiniteSet s.C ∧ ZeroState s.d0 ∧ ZeroState s.d1 ∧
    ZeroState ⟨0x80000000#32, 0#32, 0x80000000#32, 0#32⟩ ∧ s.mem = ⟨[], []⟩ ∧ signBit s.C.b0 = false ∧
    s.d0 = ⟨0#32, 0#32, 0#32, 0#32⟩ ∧ s.d1 = ⟨0#32, 0#32, 0#32, 0#32⟩ := by
  refine ⟨rfl, by decide +kernel, ?_, ?_, ?_, ?_, rfl, by decide, rfl, rfl⟩
  · unfold FiniteSet; decide
  · unfold ZeroState; decide
  · unfold ZeroState; decide
  · unfold ZeroState; decide

/-- `NanInFeedbackStaysUntilReset`: a SAMPLE of the very channel. -/
theorem witness_nan_feedback :
    let s := { inFlight (start 4 outB k1 [] []) k1 .ch0 0 with d0 := ⟨0#32, 0#32, 0x7FC00000#32, 0#32⟩ }
    step s = .next (sampleStep hardware s) ∧ nextOperation s ≠ some .reset ∧ isNaN (delays s .ch0).d2 = true :=
  ⟨rfl, by decide, by decide⟩

/-- `StepwiseCallIsTheWholeCall`, for blocks of one sample. -/
theorem witness_stepwise :
    let s := { start 1 outB k1 [] [] with inputs := tick .stepwise :: (List.replicate 3 Input.quiet ++ [setfWord]) }
    s.seq.phase = .ready ∧ 1 ≤ s.cfg.N ∧ Supply.wf s.cfg.N .procRun ⟨some [(0, 0x4000#16)], some []⟩ = true ∧
    s.inputs = .word ⟨.aud, 2, 3⟩ ⟨some [(0, 0x4000#16)], some []⟩ .stepwise ::
      (List.replicate (2 * s.cfg.N + 1) .quiet ++ [setfWord]) := ⟨rfl, by decide, rfl, rfl⟩

/-- `SettersBesideACallAreNotSeenByIt`: a setter right after PROC.BEGIN, one in mid-call, one after PROC.END. -/
theorem witness_setters_beside :
    let events : List Input := [setfWord, .quiet, setqWord, .quiet, .quiet, setfWord]
    let s := { start 1 outB k1 [] [] with inputs := tick .stepwise :: (events ++ []) }
    s.seq.phase = .ready ∧ 1 ≤ s.cfg.N ∧ Supply.wf s.cfg.N .procRun ⟨some [(0, 0x4000#16)], some []⟩ = true ∧
    (∀ e ∈ events, BesideCall s.cfg.N e) ∧ events.count .quiet = 2 * s.cfg.N + 1 ∧
    s.inputs = .word ⟨.aud, 2, 3⟩ ⟨some [(0, 0x4000#16)], some []⟩ .stepwise :: (events ++ []) := by
  have hf : BesideCall 1 setfWord := .inr ⟨_, _, _, .setf 0x463B8000#32, rfl, rfl, rfl, rfl⟩
  have hq : BesideCall 1 setqWord := .inr ⟨_, _, _, .setq 0x3F000000#32, rfl, rfl, rfl, rfl⟩
  refine ⟨rfl, by decide, rfl, fun e he => ?_, by decide, rfl⟩
  rcases (by simpa using he : e = setfWord ∨ e = .quiet ∨ e = setqWord ∨ e = .quiet ∨ e = .quiet ∨ e = setfWord)
    with rfl | rfl | rfl | rfl | rfl | rfl
  · exact hf
  · exact .inl rfl
  · exact hq
  · exact .inl rfl
  · exact .inl rfl
  · exact hf

theorem witness_parameters :
    configValid hardwareNum (cfgOf 4 outB) = true ∧ validF hardwareNum 0x473B8000#32 0x447A0000#32 = true ∧
    validQ hardwareNum 0x3F3504F3#32 = true := by decide +kernel

theorem witness_inv_ready : Inv (derived 4) :=
  have ⟨hc, hf, hq⟩ := witness_parameters
  ⟨hc, hf, hq, rfl, (fun h => by cases h), Nat.zero_le _, rfl, rfl⟩

/-- A call in flight at any of R30's positions. -/
theorem witness_inv_busy (c : Channel) (i : Nat) (h : i < 4 ∨ (c = .ch1 ∧ i = 4)) : Inv (derivedBusy 4 c i) :=
  have ⟨hc, hf, hq⟩ := witness_parameters
  ⟨hc, hf, hq, rfl, fun _ => ⟨0x447A0000#32, 0x3F3504F3#32, hf, hq, rfl⟩, h, rfl, rfl⟩

/-- `EveryStepKeepsInv` and `EveryCallEnds`, at the first and the last position. -/
theorem witness_inv_step :
    Inv (derivedBusy 4 .ch0 0) ∧ step (derivedBusy 4 .ch0 0) = .next (sampleStep hardware (derivedBusy 4 .ch0 0)) ∧
    Inv (derivedBusy 4 .ch1 4) ∧ step (derivedBusy 4 .ch1 4) = .next (procEnd (derivedBusy 4 .ch1 4)) ∧
    (derivedBusy 4 .ch1 4).seq.phase = .busy ∧ (derivedBusy 4 .ch1 4).inputs = [] :=
  ⟨witness_inv_busy _ _ (.inl (by decide)), rfl, witness_inv_busy _ _ (.inr ⟨rfl, rfl⟩), rfl, rfl, rfl⟩

theorem witness_reachable : Reachable { State.reset with inputs := [tick .stepwise, setqWord] } := .reset _

/-- `OnlyADeadlineMissStops`: its fault, and each of its refusals, each from a state of the invariant. -/
theorem witness_only_deadline_miss :
    step { derivedBusy 4 .ch0 1 with inputs := [tick .atomic] } = .fault .deadlineMiss ∧
    TickWhileBusy { derivedBusy 4 .ch0 1 with inputs := [tick .atomic] } ∧
    step { derived 4 with inputs := [.word ⟨.aud, 3, 3⟩ ⟨none, none⟩ .atomic] } = .refused .notAWord ∧
    step { derived 4 with inputs := [.word ⟨.aud, 2, 3⟩ ⟨none, some []⟩ .atomic] } = .refused .notPresentable ∧
    step { derived 4 with inputs := [.together [setfOffer, setfOffer]] } = .refused .portTakenTwice ∧
    ¬([setfOffer, setfOffer].map (·.frame.port)).Nodup ∧
    Inv { derivedBusy 4 .ch0 1 with inputs := [tick .atomic] } ∧
    (∀ events, Inv { derived 4 with inputs := events }) := by
  have hb := witness_inv_busy .ch0 1 (.inl (by decide))
  have hr := witness_inv_ready
  exact ⟨rfl, ⟨rfl, .procRun, rfl, rfl⟩, rfl, rfl, rfl, by decide, ⟨hb.1, hb.2, hb.3, hb.4, hb.5, hb.6, hb.7, hb.8⟩,
    fun _ => ⟨hr.1, hr.2, hr.3, hr.4, hr.5, hr.6, hr.7, hr.8⟩⟩

/-- `ParametersNeverChange`, `AnswersAreNeverRead` and `UnspecifiedLatchIsNeverRead`: a step from READY that goes on;
and for `AnswersAreNeverRead` a fault and a refusal. -/
theorem witness_step_next :
    (derived 4).seq.phase = .ready ∧ step { derived 4 with inputs := [rstWord] } =
      .next (resetMachine hardware { derived 4 with inputs := [] }) ∧
    fault? (step { derivedBusy 4 .ch0 1 with inputs := [tick .atomic] }) = some .deadlineMiss ∧
    refusal? (step { derived 4 with inputs := [.word ⟨.aud, 3, 3⟩ ⟨none, none⟩ .atomic] }) = some .notAWord :=
  ⟨rfl, rfl, rfl, rfl⟩

/-- `WritesFollowTheAccessMatrix`: for each column a step that changes what it speaks of. -/
theorem witness_access_matrix :
    let s := start 4 outB k1 [] []
    (∃ t, step { s with inputs := [setfWord] } = .next t ∧ t.P.f ≠ s.P.f) ∧
    (∃ t, step { s with inputs := [setqWord], C := row4 } = .next t ∧ t.P.q ≠ s.P.q) ∧
    (∃ t, step { s with inputs := [tick .stepwise] } = .next t ∧ t.K ≠ s.K ∧ t.seq ≠ s.seq ∧ t.mem.b0 ≠ s.mem.b0) ∧
    (∃ t, step { inFlight s k1 .ch0 0 with mem := ⟨[(0, 0x4000#16)], []⟩ } = .next t ∧ delays t .ch0 ≠ delays s .ch0 ∧
      t.mem.b0 ≠ [(0, 0x4000#16)]) ∧
    (∃ t, step { inFlight s k1 .ch1 0 with mem := ⟨[], [(0, 0x4000#16)]⟩ } = .next t ∧ delays t .ch1 ≠ delays s .ch1 ∧
      t.mem.b1 ≠ [(0, 0x4000#16)]) := by
  refine ⟨⟨_, rfl, ?_⟩, ⟨_, rfl, ?_⟩, ⟨_, rfl, ?_, ?_, ?_⟩, ⟨_, rfl, ?_, ?_⟩, ⟨_, rfl, ?_, ?_⟩⟩ <;> decide +kernel

/-- `AbandonedCellsHoldInputOrFiltered`, right after PROC.BEGIN (`k = 0`) and right before PROC.END (`k = 2N`). -/
theorem witness_abandoned :
    let s := start 4 outB k1 [(3, 1#16)] []
    s.seq.phase = .ready ∧ 1 ≤ s.cfg.N ∧ Memory.wf s.cfg.N s.mem = true ∧ 0 ≤ 2 * s.cfg.N ∧ 8 ≤ 2 * s.cfg.N ∧
    exec .procRun s = .next (procCall hardware s) := ⟨rfl, by decide, rfl, by decide, by decide, rfl⟩

/-- The numerics statements: finite operands (both largest, both smallest), a nonzero divisor, a NaN, an infinity, a zero
product and a zero quotient, an exact zero sum, the integers of largest magnitude. -/
theorem witness_numerics :
    fpFinite 0x7F7FFFFF#32 = true ∧ fpFinite 0xFF7FFFFF#32 = true ∧ fpFinite 0x00000001#32 = true ∧
    isZero 0x00000001#32 = false ∧ isNaN 0x7F800001#32 = true ∧ fpFinite 0x7F800000#32 = false ∧
    isZero (hardwareNum.fmul 0x80000001#32 0x00000001#32) = true ∧
    isZero (hardwareNum.fdiv 0x00000006#32 0xC73B8000#32) = true ∧ |(16777216 : Int)| ≤ 2 ^ 24 ∧
    |(-16777216 : Int)| ≤ 2 ^ 24 := by decide +kernel

/-- The real values that the numerics statements speak of. -/
theorem witness_real_values :
    realValue 0x00000001#32 ≠ 0 ∧ realValue 0x3F800000#32 + realValue 0xBF800000#32 = 0 ∧
    -32769 < realValue 0x46FFFFFF#32 ∧ realValue 0x46FFFFFF#32 < 32768 ∧ -32769 < realValue 0xC70000FF#32 ∧
    realValue 0xC70000FF#32 < 32768 ∧ 32768 ≤ realValue 0x47000000#32 ∧ realValue 0xC7000100#32 ≤ -32769 := by
  decide +kernel

end Sys2Proof.Machine.Tests
end

section
/-! PROOFS. The scope of the machine (spec/00): a step runs the decoded word, no step changes a parameter, a call taken
transition by transition is the whole call, and `NYQ` is half the rate. Each stands after the facts it needs. -/

namespace Sys2Proof.Machine

/-! ### What the host supplies -/

theorem placePart_eq_getD (p : Option Block) (old : Block) : placePart p old = p.getD old := by
  cases p <;> rfl

/-- The state with a word taken off and its blocks in place, field by field. -/
theorem place_takeInput_eq (p : Supply) (rest : List Input) (s : State) :
    place p (takeInput rest s) =
      { s with inputs := rest, mem := ⟨p.b0.getD s.mem.b0, p.b1.getD s.mem.b1⟩ } := by
  simp only [place, takeInput, placePart_eq_getD]

/-- Settles O4, by the two readings of `issue` (log 11, 12). -/
theorem stepRunsTheDecodedWord : Obligations.StepRunsTheDecodedWord := by
  intro s frame p pace rest i hin hdec hp
  rw [step_word hin hdec hp, place_takeInput_eq]
  refine ⟨fun h => ?_, fun ⟨hpace, hi⟩ => ?_⟩
  · obtain rfl | hne := h
    · exact issue_atomic _ _
    · exact issue_of_ne_procRun _ _ hne
  · rw [hpace, hi, issue_stepwise_procRun]

/-! ### What an operation can do -/

/-- The ways an operation gives a next state. -/
inductive ExecCase (i : Instr) (s t : State) : Prop where
  | setf (v : F) (hi : i = .setf v) (ht : t = setf hardwareNum v s)
  | setq (v : F) (hi : i = .setq v) (ht : t = setq hardwareNum v s)
  | run (hi : i = .procRun) (hr : s.seq.phase = .ready) (ht : t = procCall hardware s)
  | skip (hi : i = .procSkipB ∨ i = .procSkip0 ∨ i = .procSkip1) (hr : s.seq.phase = .ready)
      (ht : t = respond (.audio doneSkipped none) s)
  | reset (hi : i = .reset) (ht : t = resetMachine hardware s)

theorem exec_eq_next {i : Instr} {s t : State} (h : exec i s = .next t) : ExecCase i s t := by
  cases i with
  | setf v => cases h; exact .setf v rfl rfl
  | setq v => cases h; exact .setq v rfl rfl
  | procRun => obtain ⟨hr, ht⟩ := whenReady_eq_next h; exact .run rfl hr ht
  | procSkipB => obtain ⟨hr, ht⟩ := whenReady_eq_next h; exact .skip (.inl rfl) hr ht
  | procSkip0 => obtain ⟨hr, ht⟩ := whenReady_eq_next h; exact .skip (.inr (.inl rfl)) hr ht
  | procSkip1 => obtain ⟨hr, ht⟩ := whenReady_eq_next h; exact .skip (.inr (.inr rfl)) hr ht
  | reset => cases h; exact .reset rfl rfl

theorem exec_procRun (s : State) : exec .procRun s = whenReady (procCall hardware) s := rfl

/-! ### The parameters -/

@[simp] theorem setter_cfg (nm : Numerics) (valid : Bool) (p : FilterParameters) (s : State) :
    (setter nm valid p s).cfg = s.cfg :=
  (setter_frame nm valid p s).1

@[simp] theorem procCall_cfg (im : Impl) (s : State) : (procCall im s).cfg = s.cfg := by simp [procCall]

@[simp] theorem procCall_inputs (im : Impl) (s : State) : (procCall im s).inputs = s.inputs := by simp [procCall]

theorem exec_keeps_cfg {i : Instr} {s t : State} (h : exec i s = .next t) : t.cfg = s.cfg := by
  cases exec_eq_next h with
  | setf v _ ht => rw [ht, setf, setter_cfg]
  | setq v _ ht => rw [ht, setq, setter_cfg]
  | run _ _ ht => rw [ht, procCall_cfg]
  | skip _ _ ht => rw [ht, respond_cfg]
  | reset _ ht => rw [ht, resetMachine_cfg]

theorem ownMove_keeps_cfg {im : Impl} {s t : State} (h : ownMove im s = .next t) : t.cfg = s.cfg := by
  obtain ⟨-, rfl⟩ | ⟨-, -, -, rfl⟩ | ⟨-, -, rfl⟩ := ownMove_eq_next h
  · rfl
  · exact procEnd_cfg s
  · exact sampleStep_cfg im s

theorem step_keeps_cfg {s t : State} (h : step s = .next t) : t.cfg = s.cfg := by
  cases step_eq_next h with
  | own rest _ h => rw [ownMove_keeps_cfg h, takeInput_cfg]
  | whole o rest i _ _ _ _ h => rw [exec_keeps_cfg h, place_cfg, takeInput_cfg]
  | begun o rest _ _ _ _ _ ht => rw [ht, procBegin_cfg, place_cfg, takeInput_cfg]

/-- Settles O35, case by case of what a step can do. -/
theorem parametersNeverChange : Obligations.ParametersNeverChange :=
  fun _ _ => step_keeps_cfg

/-! ### A call in flight, with nothing beside it -/

/-- While SAMPLE transitions are left, the sequencer stands at a valid index (R30). -/
theorem index_lt_of_samplesLeft_pos {s : State} (hb : s.seq.phase = .busy) (hl : s.seq.Legal s.cfg.N)
    (h : 0 < samplesLeft s) : s.seq.i < s.cfg.N := by
  simp only [Sequencer.Legal, hb] at hl
  obtain hi | ⟨hc, hi⟩ := hl
  · exact hi
  · simp [samplesLeft, hc, hi] at h

/-- Each SAMPLE leaves one less (R129). -/
theorem samplesLeft_sampleStep (im : Impl) {s : State} (h : s.seq.i < s.cfg.N) :
    samplesLeft (sampleStep im s) + 1 = samplesLeft s := by
  by_cases hnext : s.seq.i + 1 < s.cfg.N
  · simp only [samplesLeft, sampleStep_seq, sampleStep_cfg, nextPosition, if_pos hnext]
    cases s.seq.c <;> dsimp only <;> omega
  · simp only [samplesLeft, sampleStep_seq, sampleStep_cfg, nextPosition, if_neg hnext]
    cases s.seq.c <;> dsimp only <;> omega

/-- The events that stand there, put there again. -/
theorem takeInput_of_inputs {rest : List Input} {s : State} (h : s.inputs = rest) : takeInput rest s = s := by
  subst h; rfl

/-- In a quiet slot the hardware makes its own move, whatever events stood there before. -/
theorem step_takeInput_quiet (rest : List Input) (s : State) :
    step (takeInput (.quiet :: rest) s) = ownMove hardware (takeInput rest s) :=
  step_quiet rfl

/-- Quiet slots while SAMPLE transitions are left are those transitions (R10, R129). -/
theorem runSteps_quiet_samples {k : Nat} {s : State} (rest : List Input) (hb : s.seq.phase = .busy)
    (hl : s.seq.Legal s.cfg.N) (hk : k ≤ samplesLeft s) :
    runSteps k (takeInput (List.replicate k .quiet ++ rest) s) =
      .next (takeInput rest (sampleSteps hardware k s)) := by
  induction k generalizing s with
  | zero => rfl
  | succ k ih =>
    have hi := index_lt_of_samplesLeft_pos hb hl (by omega)
    have hleft := samplesLeft_sampleStep hardware hi
    have hstep : step (takeInput (.quiet :: (List.replicate k .quiet ++ rest)) s) =
        .next (takeInput (List.replicate k .quiet ++ rest) (sampleStep hardware s)) := by
      rw [step_takeInput_quiet, ownMove_busy (by rwa [takeInput_seq]), sequencerMove_sample (by exact hi),
        sampleStep_takeInput]
    rw [List.replicate_succ, List.cons_append, runSteps_succ_of_next hstep, sampleSteps_succ]
    refine ih (nextPosition_phase _ _) ?_ (by omega)
    rw [sampleStep_cfg, sampleStep_seq]
    exact nextPosition_legal _ (by omega)

/-- From PROC.BEGIN on, `2N + 1` quiet slots are the `2N` SAMPLE transitions and PROC.END (R121). -/
theorem runSteps_quiet_call {s : State} (rest : List Input) (hn : 1 ≤ s.cfg.N) :
    runSteps (2 * s.cfg.N + 1) (takeInput (List.replicate (2 * s.cfg.N + 1) .quiet ++ rest) (procBegin s)) =
      .next (takeInput rest (procCall hardware s)) := by
  have hsamples := runSteps_quiet_samples (k := 2 * s.cfg.N) (s := procBegin s) (.quiet :: rest) rfl (.inl hn)
    (by simp [samplesLeft]; omega)
  have hseq := (sampleSteps_call hardware s).2 hn
  have hend : step (takeInput (.quiet :: rest) (sampleSteps hardware (2 * s.cfg.N) (procBegin s))) =
      .next (takeInput rest (procCall hardware s)) := by
    rw [step_takeInput_quiet, ownMove_busy (by rw [takeInput_seq, hseq]),
      sequencerMove_end (by rw [takeInput_seq, hseq]) (by simp [hseq])]
    rfl
  rw [List.replicate_succ', List.append_assoc]
  exact (runSteps_add hsamples).trans (runSteps_succ_of_next hend)

/-- Settles O28: the first step is PROC.BEGIN, the quiet slots are the rest of the call. -/
theorem stepwiseCallIsTheWholeCall : Obligations.StepwiseCallIsTheWholeCall := by
  intro s frame p rest hr hn hdec hp hin
  let s' := place p (takeInput rest s)
  have hbegin : step s =
      .next (takeInput (List.replicate (2 * s.cfg.N + 1) .quiet ++ rest) (procBegin s')) := by
    rw [step_word hin hdec hp, issue_stepwise_procRun]
    exact whenReady_ready hr
  calc runSteps (2 * s.cfg.N + 2) s
      = .next (takeInput rest (procCall hardware s')) :=
        (runSteps_succ_of_next hbegin).trans (runSteps_quiet_call (s := s') rest hn)
    _ = .next (procCall hardware s') := by
        rw [takeInput_of_inputs (by rw [procCall_inputs]; rfl)]
    _ = exec .procRun s' := by rw [exec_procRun, whenReady_ready (s := s') hr]

/-! ### The real number of a pattern -/

theorem signBit_eq (x : F) : signBit x = decide (2 ^ 31 ≤ x.toNat) := by
  simpa [signBit, BitVec.msb_eq_getLsbD_last] using BitVec.msb_eq_decide x

theorem extractLsb'_exponent (x : F) : (x.extractLsb' 23 8).toNat = expField x := by
  rw [BitVec.extractLsb'_toNat, Nat.shiftRight_eq_div_pow, expField]

theorem extractLsb'_fraction (x : F) : (x.extractLsb' 0 23).toNat = fracField x := by
  rw [BitVec.extractLsb'_toNat, Nat.shiftRight_zero, fracField]

/-- The real number of a pattern is its magnitude, a whole number of units `2^-150`, with its sign (R151). -/
theorem realValue_eq_magnitude (x : F) :
    realValue x = (if signBit x then -1 else 1) * (magnitude x / 2 ^ 150) := by
  have hsign : x.getLsbD 31 = signBit x := rfl
  simp only [realValue, extractLsb'_exponent, extractLsb'_fraction, hsign, mul_assoc]
  by_cases he : expField x = 0
  · simp only [magnitude, significand, he, Nat.cast_zero, if_true]
    refine congrArg _ ?_
    norm_num
    ring
  · have hmax : max (expField x) 1 = expField x := by omega
    have hpow : (2 : ℚ) ^ ((expField x : ℤ) - 127) = 2 ^ expField x / 2 ^ 127 := by
      rw [zpow_sub₀ two_ne_zero, zpow_natCast]
      rfl
    simp only [magnitude, significand, he, hmax, hpow, Nat.cast_eq_zero, if_false]
    push_cast
    ring

/-- A normal number's significand has 24 bits. -/
theorem significand_of_normal {x : F} (h : expField x ≠ 0) : 2 ^ 23 ≤ significand x ∧ significand x < 2 ^ 24 := by
  have hfrac : fracField x < 2 ^ 23 := Nat.mod_lt _ (by decide)
  simp only [significand, h, if_false]
  omega

/-! ### A pattern put together from its sign and its lower 31 bits -/

section WithSign
variable (neg : Bool) {low : Nat} (h : low < 2 ^ 31)
include h

theorem withSign_toNat : (withSign neg low).toNat = (if neg then 2 ^ 31 else 0) + low := by
  cases neg <;> simp [withSign] <;> omega

theorem signBit_withSign : signBit (withSign neg low) = neg := by
  rw [signBit_eq, withSign_toNat neg h]
  cases neg
  · simpa using h
  · simp

theorem expField_withSign : expField (withSign neg low) = low / 2 ^ 23 := by
  rw [expField, withSign_toNat neg h]
  cases neg <;> simp <;> omega

theorem fracField_withSign : fracField (withSign neg low) = low % 2 ^ 23 := by
  rw [fracField, withSign_toNat neg h]
  cases neg
  · simp
  · simp; omega

end WithSign

/-- The pattern of the normal number with significand `sig` and biased exponent `e` (R151). -/
theorem realValue_withSign_normal (neg : Bool) {sig e : Nat} (hsig : 2 ^ 23 ≤ sig) (hsig' : sig < 2 ^ 24) (he : 1 ≤ e)
    (he' : e ≤ 254) :
    realValue (withSign neg ((e - 1) * 2 ^ 23 + sig)) = (if neg then -1 else 1) * (sig * 2 ^ e / 2 ^ 150) := by
  have hlow : (e - 1) * 2 ^ 23 + sig < 2 ^ 31 := by omega
  have hexp : expField (withSign neg ((e - 1) * 2 ^ 23 + sig)) = e := by
    rw [expField_withSign neg hlow]
    omega
  have hfrac : 2 ^ 23 + fracField (withSign neg ((e - 1) * 2 ^ 23 + sig)) = sig := by
    rw [fracField_withSign neg hlow]
    omega
  have hmag : magnitude (withSign neg ((e - 1) * 2 ^ 23 + sig)) = sig * 2 ^ e := by
    rw [magnitude, significand, hexp, if_neg (by omega), hfrac, max_eq_left he]
  rw [realValue_eq_magnitude, signBit_withSign neg hlow, hmag]
  push_cast
  rfl

/-! ### Rounding a quotient that is a normal number -/

theorem roundNat_mul_right (n : Nat) {b : Nat} (hb : 0 < b) : roundNat (n * b) b = n := by
  simp only [roundNat, Nat.mul_div_cancel n hb, Nat.mul_mod_left]
  exact if_neg (by omega)

section Exact
variable {p q sig e : Nat} (hq : 0 < q) (hsig : 2 ^ 23 ≤ sig) (hsig' : sig < 2 ^ 24) (he : 1 ≤ e)
  (h : p * 2 ^ 150 = sig * (q * 2 ^ e))
include hq hsig hsig' he h

/-- `p / q = sig * 2^(e-150)` lies in the binade with biased exponent `e`. -/
theorem binade_of_exact : binade p q = e := by
  obtain ⟨e, rfl⟩ : ∃ k, e = k + 1 := ⟨e - 1, by omega⟩
  have hunit : 0 < q * 2 ^ e := by positivity
  have hscaled : p * 2 ^ 126 * 2 ^ 23 = sig * (q * 2 ^ e) := by
    refine Nat.eq_of_mul_eq_mul_right two_pos ?_
    calc p * 2 ^ 126 * 2 ^ 23 * 2 = p * 2 ^ 150 := by ring
      _ = sig * (q * 2 ^ (e + 1)) := h
      _ = sig * (q * 2 ^ e) * 2 := by ring
  have hlow : q * 2 ^ e ≤ p * 2 ^ 126 := by
    have := Nat.mul_le_mul_right (q * 2 ^ e) hsig
    omega
  have hhigh : p * 2 ^ 126 < 2 * (q * 2 ^ e) := by
    have := Nat.mul_lt_mul_of_pos_right hsig' hunit
    omega
  have hle : 2 ^ e ≤ p * 2 ^ 126 / q := by
    rwa [Nat.le_div_iff_mul_le hq, mul_comm]
  have hlt : p * 2 ^ 126 / q < 2 ^ (e + 1) := by
    rw [Nat.div_lt_iff_lt_mul hq]
    calc p * 2 ^ 126 < 2 * (q * 2 ^ e) := hhigh
      _ = 2 ^ (e + 1) * q := by ring
  rw [binade, (Nat.log2_eq_iff (Nat.ne_of_gt (lt_of_lt_of_le (by positivity) hle))).2 ⟨hle, hlt⟩]

theorem roundQuotient_of_exact (neg : Bool) (he' : e ≤ 254) :
    roundQuotient neg p q = withSign neg ((e - 1) * 2 ^ 23 + sig) := by
  have hround : roundNat (p * 2 ^ 150) (q * 2 ^ e) = sig := by
    rw [h]
    exact roundNat_mul_right sig (by positivity)
  simp only [roundQuotient, binade_of_exact hq hsig hsig' he h, hround, infLow]
  rw [if_neg (by omega), if_neg (by omega)]

/-- A quotient that is a normal number is not rounded (R152). -/
theorem realValue_roundQuotient_of_exact (neg : Bool) (he' : e ≤ 254) :
    realValue (roundQuotient neg p q) = (if neg then -1 else 1) * (p / q) := by
  have hq0 : (q : ℚ) ≠ 0 := by positivity
  have hquot : (sig * 2 ^ e / 2 ^ 150 : ℚ) = p / q := by
    rw [div_eq_div_iff (by positivity) hq0]
    exact_mod_cast (by rw [h]; ring : sig * 2 ^ e * q = p * 2 ^ 150)
  rw [roundQuotient_of_exact hq hsig hsig' he h neg he', realValue_withSign_normal neg hsig hsig' he he', hquot]

end Exact

/-! ### Halving -/

theorem nyquist_eq_roundQuotient {fs : F} (h : fpFinite fs = true) :
    nyquist hardwareNum fs = roundQuotient (signBit fs) (magnitude fs) (2 ^ 151) := by
  have htwo : nyquist hardwareNum fs =
      roundQuotient (signBit fs != signBit 0x40000000#32) (magnitude fs) (magnitude 0x40000000#32) :=
    fpDiv_finite _ h (by decide) (by decide)
  have hsign : signBit 0x40000000#32 = false := by decide
  have hmag : magnitude 0x40000000#32 = 2 ^ 151 := by decide
  rw [htwo, hsign, hmag, Bool.bne_false]

theorem realValue_nyquist {fs : F} (h : fpFinite fs = true) (he : 2 ≤ expField fs) :
    realValue (nyquist hardwareNum fs) = realValue fs / 2 := by
  obtain ⟨hsig, hsig'⟩ := significand_of_normal (x := fs) (by omega)
  have hfield : expField fs < 2 ^ 8 := Nat.mod_lt _ (by decide)
  have hnot : expField fs ≠ 255 := by simpa [fpFinite] using h
  have hexact : magnitude fs * 2 ^ 150 = significand fs * (2 ^ 151 * 2 ^ (expField fs - 1)) := by
    obtain ⟨k, hk⟩ : ∃ k, expField fs = k + 1 := ⟨expField fs - 1, by omega⟩
    rw [magnitude, hk, max_eq_left (by omega), Nat.add_sub_cancel]
    ring
  rw [nyquist_eq_roundQuotient h, realValue_roundQuotient_of_exact (by positivity) hsig hsig' (by omega) hexact _
    (by omega), realValue_eq_magnitude]
  push_cast
  ring

/-- Settles O12: half a normal number is the same significand at the exponent below, so the division is exact. -/
theorem nyquistIsHalfTheRate : Obligations.NyquistIsHalfTheRate :=
  fun _ => realValue_nyquist

end Sys2Proof.Machine
end

section
/-! PROOFS. The state (spec/10): the invariant holds at reset and every step keeps it, who writes what, and what no
transition reads. -/

namespace Sys2Proof.Machine

/-! ### The state after reset -/

/-- The default parameters are valid ones (R6). -/
theorem defaults_valid {nm : Numerics} {cfg : Config} (h : configValid nm cfg = true) :
    validF nm cfg.FS cfg.f0Default = true ∧ validQ nm cfg.q0Default = true := by
  obtain ⟨-, -, -, -, hf, hq⟩ := configValid_iff.1 h
  exact ⟨hf, hq⟩

/-- Settles O30: the defaults are valid, and `C` is computed from them. -/
theorem invHoldsAtReset : Obligations.InvHoldsAtReset := fun _ =>
  have ⟨hf, hq⟩ := defaults_valid configValid_buildConfig
  { config := configValid_buildConfig
    frequency := hf
    quality := hq
    coefficients := rfl
    latch := fun h => by cases h
    position := Nat.zero_le _
    memory := rfl
    lent := rfl }

/-- Settles O41: R34, field by field. -/
theorem stateAfterReset : Obligations.StateAfterReset :=
  ⟨configValid_buildConfig, rfl, rfl, rfl, rfl, rfl⟩

/-! ### Every operation keeps the invariant -/

theorem Inv.one_le_N {s : State} (h : Inv s) : 1 ≤ s.cfg.N := (configValid_iff.1 h.config).1

/-- The active set came from valid parameters, so PROC.BEGIN latches one that did (R111). -/
theorem Inv.active {s : State} (h : Inv s) : FromValidParameters s.cfg.FS s.C :=
  ⟨s.P.f, s.P.q, h.frequency, h.quality, h.coefficients⟩

theorem Sequencer.Legal.index_le {n : Nat} {q : Sequencer} (h : q.Legal n) : q.i ≤ n := by
  unfold Sequencer.Legal at h
  split at h
  · exact h
  · omega

/-- The invariant speaks of no event. -/
theorem inv_takeInput {s : State} (rest : List Input) (h : Inv s) : Inv (takeInput rest s) :=
  { h with }

/-- It speaks of no answer. -/
theorem inv_respond {s : State} (r : Response) (h : Inv s) : Inv (respond r s) :=
  { h with }

theorem inv_place {i : Instr} {p : Supply} {s : State} (h : Inv s) (hp : p.wf s.cfg.N i = true) : Inv (place p s) :=
  { h with memory := Memory.wf_place h.memory hp }

/-- A setter that commits valid parameters keeps the invariant, and one that rejects only answers (R110). -/
theorem inv_setter {s : State} {valid : Bool} {p : FilterParameters} (h : Inv s)
    (hp : valid = true → validF hardwareNum s.cfg.FS p.f = true ∧ validQ hardwareNum p.q = true) :
    Inv (setter hardwareNum valid p s) := by
  obtain ⟨hv, ht⟩ | ⟨-, ht⟩ := setter_cases hardwareNum valid p s
  · obtain ⟨hf, hq⟩ := hp hv
    rw [ht]
    exact inv_respond _ { h with frequency := hf, quality := hq, coefficients := rfl }
  · rw [ht]
    exact inv_respond _ h

theorem inv_procBegin {s : State} (h : Inv s) : Inv (procBegin s) :=
  { h with
    latch := fun _ => h.active
    position := .inl h.one_le_N
    lent := h.memory }

theorem inv_procEnd {s : State} (h : Inv s) : Inv (procEnd s) :=
  inv_respond _ { h with
    latch := fun hb => by cases hb
    position := h.position.index_le
    lent := rfl }

/-- SAMPLE at a valid index keeps the invariant: it writes registers, one cell and the position (R124). -/
theorem inv_sampleStep (im : Impl) {s : State} (h : Inv s) (hb : s.seq.phase = .busy) (hi : s.seq.i < s.cfg.N) :
    Inv (sampleStep im s) := by
  rw [sampleStep_eq]
  exact { h with
    latch := fun _ => h.latch hb
    position := nextPosition_legal s.seq h.one_le_N
    memory := Memory.wf_sampleAt im s.seq.c h.memory hi }

theorem inv_sampleSteps (im : Impl) {k : Nat} {s : State} (h : Inv s) (hb : s.seq.phase = .busy)
    (hk : k ≤ samplesLeft s) : Inv (sampleSteps im k s) := by
  induction k generalizing s with
  | zero => exact h
  | succ k ih =>
    have hi := index_lt_of_samplesLeft_pos hb h.position (by omega)
    have hleft := samplesLeft_sampleStep im hi
    exact ih (inv_sampleStep im h hb hi) (nextPosition_phase _ _) (by omega)

theorem samplesLeft_procBegin (s : State) : samplesLeft (procBegin s) = 2 * s.cfg.N := by
  simp only [samplesLeft, procBegin_seq, procBegin_cfg]
  omega

theorem inv_procCall (im : Impl) {s : State} (h : Inv s) : Inv (procCall im s) :=
  inv_procEnd (inv_sampleSteps im (inv_procBegin h) rfl (samplesLeft_procBegin s).ge)

theorem inv_resetMachine {s : State} (h : Inv s) : Inv (resetMachine hardware s) :=
  have ⟨hf, hq⟩ := defaults_valid h.config
  { config := h.config
    frequency := hf
    quality := hq
    coefficients := rfl
    latch := fun hb => by cases hb
    position := Nat.lt_succ_iff.1 (Nat.mod_lt _ (Nat.succ_pos _))
    memory := Memory.wf_memoryAfterReset hardware (s := s) h.memory
    lent := rfl }

theorem exec_keeps_inv {i : Instr} {s t : State} (h : Inv s) (ht : exec i s = .next t) : Inv t := by
  cases exec_eq_next ht with
  | setf v _ ht => exact ht ▸ inv_setter h fun hv => ⟨hv, h.quality⟩
  | setq v _ ht => exact ht ▸ inv_setter h fun hv => ⟨h.frequency, hv⟩
  | run _ _ ht => exact ht ▸ inv_procCall hardware h
  | skip _ _ ht => exact ht ▸ inv_respond _ h
  | reset _ ht => exact ht ▸ inv_resetMachine h

theorem ownMove_keeps_inv {im : Impl} {s t : State} (h : Inv s) (ht : ownMove im s = .next t) : Inv t := by
  obtain ⟨-, rfl⟩ | ⟨-, -, -, rfl⟩ | ⟨hb, hi, rfl⟩ := ownMove_eq_next ht
  · exact h
  · exact inv_procEnd h
  · exact inv_sampleStep im h hb hi

/-- Settles O31, case by case of what a step can do. -/
theorem everyStepKeepsInv : Obligations.EveryStepKeepsInv := by
  intro s t h ht
  have hrest := fun rest => inv_takeInput rest h
  cases step_eq_next ht with
  | own rest _ ht => exact ownMove_keeps_inv (hrest rest) ht
  | whole o rest i _ _ _ hp ht => exact exec_keeps_inv (inv_place (hrest rest) hp) ht
  | begun o rest _ _ _ hp _ ht => exact ht ▸ inv_procBegin (inv_place (hrest rest) hp)

/-! ### Reachable states -/

theorem recompute_b0_eq_b2 (nm : Numerics) (f q fs : F) :
    (recompute nm f q fs).b0 = (recompute nm f q fs).b2 := rfl

theorem inv_of_reachable {s : State} (h : Reachable s) : Inv s :=
  holds_of_reachable invHoldsAtReset everyStepKeepsInv h

/-- Settles O32: the invariant, and `b0` and `b2` of any recomputed set are one quotient (R107). -/
theorem reachableCoefficientsAreDerived : Obligations.ReachableCoefficientsAreDerived := by
  intro s hs
  have h := inv_of_reachable hs
  refine ⟨h.coefficients, h.frequency, h.quality, ?_, fun hb => ?_⟩
  · rw [h.coefficients, recompute_b0_eq_b2]
  · obtain ⟨f, q, -, -, hK⟩ := h.latch hb
    rw [hK, recompute_b0_eq_b2]

/-! ### Who writes what -/

theorem announced_of_placePart_ne {n : Nat} {flag : Bool} {p : Option Block} {old : Block}
    (hp : Supply.partWf n flag p = true) (h : placePart p old ≠ old) : flag = true := by
  cases p with
  | none => exact absurd rfl h
  | some b => exact (Bool.and_eq_true_iff.1 hp).1

/-- The host puts a block in place only where the header announces it (R83). -/
theorem place_writes_announced {n : Nat} {i : Instr} {p : Supply} (s : State) (hp : p.wf n i = true) :
    ((place p s).mem.b0 ≠ s.mem.b0 → i.avail.1 = true) ∧ ((place p s).mem.b1 ≠ s.mem.b1 → i.avail.2 = true) := by
  obtain ⟨h0, h1⟩ := Bool.and_eq_true_iff.1 hp
  exact ⟨announced_of_placePart_ne h0, announced_of_placePart_ne h1⟩

/-- SAMPLE writes its own channel alone (R27, R36). -/
theorem chan_sampleStep_other (im : Impl) {s : State} {c : Channel} (h : c ≠ s.seq.c) :
    chan (sampleStep im s) c = chan s c := by
  rw [chan_sampleStep, chan_sampleAt_other im _ s h]

theorem sampleStep_writes_own_channel {im : Impl} {s : State} {c : Channel} :
    (delays (sampleStep im s) c ≠ delays s c → s.seq.c = c) ∧
    (memBlock (sampleStep im s).mem c ≠ memBlock s.mem c → s.seq.c = c) := by
  by_cases hc : c = s.seq.c
  · exact ⟨fun _ => hc.symm, fun _ => hc.symm⟩
  · obtain ⟨hd, hm⟩ := Prod.mk.inj (chan_sampleStep_other im hc)
    exact ⟨absurd hd, absurd hm⟩

/-- The access matrix of R36 for one transition, column by column: `op` is the operation asked for, if one is. -/
structure FollowsAccessMatrix (op : Option Instr) (s t : State) : Prop where
  frequency : t.P.f ≠ s.P.f → (∃ v, op = some (.setf v)) ∨ op = some .reset
  quality : t.P.q ≠ s.P.q → (∃ v, op = some (.setq v)) ∨ op = some .reset
  active : t.C ≠ s.C → (∃ v, op = some (.setf v) ∨ op = some (.setq v)) ∨ op = some .reset
  latch : t.K ≠ s.K → op = some .procRun ∨ op = some .reset
  registers : ∀ c, delays t c ≠ delays s c →
    (op = none ∧ s.seq.phase = .busy ∧ s.seq.c = c) ∨ op = some .procRun ∨ op = some .reset
  sequencer : t.seq ≠ s.seq → (op = none ∧ s.seq.phase = .busy) ∨ op = some .procRun ∨ op = some .reset
  block0 : t.mem.b0 ≠ s.mem.b0 → (op = none ∧ s.seq.phase = .busy ∧ s.seq.c = .ch0) ∨
    (∃ i, op = some i ∧ i.avail.1 = true) ∨ (op = some .reset ∧ s.seq.phase = .busy)
  block1 : t.mem.b1 ≠ s.mem.b1 → (op = none ∧ s.seq.phase = .busy ∧ s.seq.c = .ch1) ∨
    (∃ i, op = some i ∧ i.avail.2 = true) ∨ (op = some .reset ∧ s.seq.phase = .busy)

/-- What the hardware does by itself: at most its sequencer's own column, and of a SAMPLE its channel's too. -/
theorem ownMove_followsAccessMatrix {im : Impl} {s t : State} (h : ownMove im s = .next t) :
    FollowsAccessMatrix none s t := by
  obtain ⟨-, rfl⟩ | ⟨hb, -, -, rfl⟩ | ⟨hb, -, rfl⟩ := ownMove_eq_next h
  · constructor <;> simp
  · constructor <;> simp [hb, delays]
  · have hown (c : Channel) := sampleStep_writes_own_channel (im := im) (s := s) (c := c)
    exact {
      frequency := fun hne => absurd (by rw [sampleStep_P]) hne
      quality := fun hne => absurd (by rw [sampleStep_P]) hne
      active := absurd (sampleStep_C im s)
      latch := absurd (sampleStep_K im s)
      registers := fun c hne => .inl ⟨rfl, hb, (hown c).1 hne⟩
      sequencer := fun _ => .inl ⟨rfl, hb⟩
      block0 := fun hne => .inl ⟨rfl, hb, (hown .ch0).2 hne⟩
      block1 := fun hne => .inl ⟨rfl, hb, (hown .ch1).2 hne⟩ }

/-- An answer is no write (R32). -/
theorem respond_followsAccessMatrix (op : Option Instr) (r : Response) (s : State) :
    FollowsAccessMatrix op s (respond r s) := by
  constructor <;> simp [delays]

/-- A setter writes its own parameter and the active set, or nothing (R110). -/
theorem setter_followsAccessMatrix {op : Instr} {nm : Numerics} {valid : Bool} {p : FilterParameters} {s : State}
    (hf : p.f ≠ s.P.f → ∃ v, op = .setf v) (hq : p.q ≠ s.P.q → ∃ v, op = .setq v)
    (hop : ∃ v, op = .setf v ∨ op = .setq v) :
    FollowsAccessMatrix (some op) s (setter nm valid p s) := by
  obtain ⟨-, ht⟩ | ⟨-, ht⟩ := setter_cases nm valid p s
  · rw [ht]
    exact { respond_followsAccessMatrix (some op) (.control stOk) s with
      frequency := fun hne => .inl (by simpa using hf hne)
      quality := fun hne => .inl (by simpa using hq hne)
      active := fun _ => .inl (by simpa using hop) }
  · rw [ht]
    exact respond_followsAccessMatrix _ _ s

/-- RESET leaves the block spaces alone while READY (R36); every other column is its own. -/
theorem resetMachine_followsAccessMatrix (im : Impl) (s : State) :
    FollowsAccessMatrix (some .reset) s (resetMachine im s) := by
  cases hp : s.seq.phase with
  | ready => constructor <;> simp [memoryAfterReset_ready hp]
  | busy => constructor <;> simp [hp]

theorem exec_followsAccessMatrix {i : Instr} {s t : State} (h : exec i s = .next t) :
    FollowsAccessMatrix (some i) s t := by
  cases exec_eq_next h with
  | setf v hi ht =>
    subst hi ht
    exact setter_followsAccessMatrix (fun _ => ⟨v, rfl⟩) (absurd rfl) ⟨v, .inl rfl⟩
  | setq v hi ht =>
    subst hi ht
    exact setter_followsAccessMatrix (absurd rfl) (fun _ => ⟨v, rfl⟩) ⟨v, .inr rfl⟩
  | run hi _ ht =>
    subst hi ht
    constructor <;> simp [procCall, Instr.avail]
  | skip _ _ ht =>
    subst ht
    exact respond_followsAccessMatrix _ _ s
  | reset hi ht =>
    subst hi ht
    exact resetMachine_followsAccessMatrix hardware s

theorem procBegin_followsAccessMatrix (s : State) : FollowsAccessMatrix (some .procRun) s (procBegin s) := by
  constructor <;> simp [delays]

/-- Taking an event off writes nothing of R36. -/
theorem FollowsAccessMatrix.of_takeInput {op : Option Instr} {rest : List Input} {s t : State}
    (h : FollowsAccessMatrix op (takeInput rest s) t) : FollowsAccessMatrix op s t :=
  { h with }

/-- Nor does the host's placing, but for the blocks that the header announces (R52, log 24). -/
theorem FollowsAccessMatrix.of_place {n : Nat} {i : Instr} {p : Supply} {s t : State} (hp : p.wf n i = true)
    (h : FollowsAccessMatrix (some i) (place p s) t) : FollowsAccessMatrix (some i) s t := by
  obtain ⟨h0, h1⟩ := place_writes_announced s hp
  exact { h with
    block0 := fun hne => by
      by_cases hput : (place p s).mem.b0 = s.mem.b0
      · exact h.block0 (hput ▸ hne)
      · exact .inr (.inl ⟨i, rfl, h0 hput⟩)
    block1 := fun hne => by
      by_cases hput : (place p s).mem.b1 = s.mem.b1
      · exact h.block1 (hput ▸ hne)
      · exact .inr (.inl ⟨i, rfl, h1 hput⟩) }

theorem step_followsAccessMatrix {s t : State} (h : step s = .next t) :
    FollowsAccessMatrix (nextOperation s) s t := by
  cases step_eq_next h with
  | own rest hop h =>
    rw [hop]
    exact (ownMove_followsAccessMatrix h).of_takeInput
  | whole o rest i _ _ hop hp h =>
    rw [hop]
    exact ((exec_followsAccessMatrix h).of_place hp).of_takeInput
  | begun o rest _ _ hop hp _ ht =>
    subst ht
    rw [hop]
    exact ((procBegin_followsAccessMatrix _).of_place hp).of_takeInput

/-- Settles O36: the host's placing and the operation each keep to the matrix. -/
theorem writesFollowTheAccessMatrix : Obligations.WritesFollowTheAccessMatrix := by
  intro s t h
  obtain ⟨frequency, quality, active, latch, registers, sequencer, block0, block1⟩ := step_followsAccessMatrix h
  exact ⟨frequency, quality, active, latch, registers, sequencer, block0, block1⟩

/-! ### What a step reads -/

/-- A step reads the events and the parameters; all else it hands to the hardware's own move and to the operation
issued. So what relates those of two states relates their steps. -/
theorem step_related {R : Host.Outcome State Fault Refusal → Host.Outcome State Fault Refusal → Prop} {s s' : State}
    (hinputs : s'.inputs = s.inputs) (hcfg : s'.cfg = s.cfg)
    (hown : ∀ rest, R (ownMove hardware (takeInput rest s)) (ownMove hardware (takeInput rest s')))
    (hissue : ∀ pace i p rest,
      R (issue pace i (place p (takeInput rest s))) (issue pace i (place p (takeInput rest s'))))
    (hrefused : ∀ r, R (.refused r) (.refused r)) : R (step s) (step s') := by
  cases hslot : nextSlot s.inputs with
  | nothing rest =>
    rw [step_of_nothing hslot, step_of_nothing (hinputs ▸ hslot)]
    exact hown rest
  | twice =>
    rw [step_of_twice hslot, step_of_twice (hinputs ▸ hslot)]
    exact hrefused _
  | offered o rest =>
    rw [step_of_offered hslot, step_of_offered (hinputs ▸ hslot)]
    simp only [takeOffer, takeInput_cfg, hcfg]
    cases decode o.frame with
    | ok i =>
      by_cases hwf : o.supply.wf s.cfg.N i = true
      · simpa only [hwf, if_true] using hissue o.pace i o.supply rest
      · simpa only [hwf, Bool.false_eq_true, if_false] using hrefused .notPresentable
    | error e =>
      cases e with
      | noRequest => exact hown rest
      | wrongWidth => exact hrefused _
      | bitsAboveWidth => exact hrefused _

/-! ### Earlier answers -/

/-- The state with other earlier answers. -/
def withOutputs (seen : List Response) (s : State) : State := { s with outputs := seen }

@[simp] theorem withOutputs_cfg (seen : List Response) (s : State) : (withOutputs seen s).cfg = s.cfg := rfl
@[simp] theorem withOutputs_seq (seen : List Response) (s : State) : (withOutputs seen s).seq = s.seq := rfl

/-- Two outcomes that are one and the same but for the earlier answers, `old` and `seen`: at most one answer is put in
front of either. -/
inductive SameButAnswers (old seen : List Response) :
    Host.Outcome State Fault Refusal → Host.Outcome State Fault Refusal → Prop where
  | next (new : List Response) (t : State) (hnew : new.length ≤ 1) (ht : t.outputs = new ++ old) :
      SameButAnswers old seen (.next t) (.next (withOutputs (new ++ seen) t))
  | fault (r : Fault) : SameButAnswers old seen (.fault r) (.fault r)
  | refused (r : Refusal) : SameButAnswers old seen (.refused r) (.refused r)

/-- A transition that answers nothing. -/
theorem SameButAnswers.silent {old seen : List Response} {t : State} (h : t.outputs = old) :
    SameButAnswers old seen (.next t) (.next (withOutputs seen t)) :=
  .next [] t (Nat.zero_le 1) h

/-- A transition that answers once. -/
theorem SameButAnswers.answered {old seen : List Response} {t : State} (r : Response) (h : t.outputs = r :: old) :
    SameButAnswers old seen (.next t) (.next (withOutputs (r :: seen) t)) :=
  .next [r] t le_rfl h

theorem SameButAnswers.whenReady {old seen : List Response} {s : State} {f : State → State}
    (h : SameButAnswers old seen (.next (f s)) (.next (f (withOutputs seen s)))) :
    SameButAnswers old seen (whenReady f s) (whenReady f (withOutputs seen s)) := by
  simp only [Machine.whenReady, withOutputs_seq]
  split
  · exact h
  · exact .fault _

section Answers
variable (im : Impl) (seen : List Response) (s : State)

theorem sampleAt_withOutputs (c : Channel) (i : Nat) :
    sampleAt im c i (withOutputs seen s) = withOutputs seen (sampleAt im c i s) := by
  cases c <;> rfl

theorem sampleStep_withOutputs : sampleStep im (withOutputs seen s) = withOutputs seen (sampleStep im s) := by
  unfold sampleStep
  rw [withOutputs_seq, sampleAt_withOutputs]
  rfl

theorem sampleSteps_withOutputs (k : Nat) :
    sampleSteps im k (withOutputs seen s) = withOutputs seen (sampleSteps im k s) := by
  induction k generalizing s with
  | zero => rfl
  | succ k ih => rw [sampleSteps_succ, sampleStep_withOutputs, ih, sampleSteps_succ]

theorem memoryAfterReset_withOutputs : memoryAfterReset im (withOutputs seen s) = memoryAfterReset im s := by
  have hleft : samplesLeft (withOutputs seen s) = samplesLeft s := rfl
  unfold memoryAfterReset
  rw [hleft, sampleSteps_withOutputs]
  rfl

theorem resetMachine_withOutputs : resetMachine im (withOutputs seen s) = withOutputs seen (resetMachine im s) := by
  unfold resetMachine
  rw [memoryAfterReset_withOutputs]
  rfl

theorem procCall_withOutputs : procCall im (withOutputs seen s) =
    withOutputs (.audio doneProcessed (some (procCall im s).mem) :: seen) (procCall im s) := by
  have hbegin : procBegin (withOutputs seen s) = withOutputs seen (procBegin s) := rfl
  simp only [procCall, hbegin, withOutputs_cfg, sampleSteps_withOutputs]
  rfl

theorem procCall_outputs :
    (procCall im s).outputs = .audio doneProcessed (some (procCall im s).mem) :: s.outputs := by
  simp [procCall]

theorem sequencerMove_sameButAnswers :
    SameButAnswers s.outputs seen (sequencerMove im s) (sequencerMove im (withOutputs seen s)) := by
  simp only [sequencerMove, withOutputs_seq, withOutputs_cfg, sampleStep_withOutputs]
  split
  · exact .answered _ (procEnd_outputs s)
  · split
    · exact .silent (sampleStep_outputs im s)
    · exact .fault _

theorem ownMove_sameButAnswers :
    SameButAnswers s.outputs seen (ownMove im s) (ownMove im (withOutputs seen s)) := by
  simp only [ownMove, withOutputs_seq]
  split
  · exact .silent rfl
  · exact sequencerMove_sameButAnswers im seen s

theorem setter_sameButAnswers (nm : Numerics) (valid : Bool) (p : FilterParameters) :
    SameButAnswers s.outputs seen (.next (setter nm valid p s)) (.next (setter nm valid p (withOutputs seen s))) := by
  cases valid with
  | true => exact .answered (.control stOk) rfl
  | false => exact .answered (.control stInvalid) rfl

theorem exec_sameButAnswers (i : Instr) :
    SameButAnswers s.outputs seen (exec i s) (exec i (withOutputs seen s)) := by
  have hskip : SameButAnswers s.outputs seen (whenReady (raise .missingInput) s)
      (whenReady (raise .missingInput) (withOutputs seen s)) :=
    .whenReady (.answered (.audio doneSkipped none) rfl)
  cases i with
  | setf v => exact setter_sameButAnswers seen s hardwareNum _ _
  | setq v => exact setter_sameButAnswers seen s hardwareNum _ _
  | procRun =>
    refine .whenReady ?_
    rw [procCall_withOutputs]
    exact .answered _ (procCall_outputs hardware s)
  | procSkipB => exact hskip
  | procSkip0 => exact hskip
  | procSkip1 => exact hskip
  | reset =>
    show SameButAnswers _ _ (.next (resetMachine hardware s)) (.next (resetMachine hardware (withOutputs seen s)))
    rw [resetMachine_withOutputs]
    exact .silent rfl

theorem issue_sameButAnswers (pace : Pace) (i : Instr) :
    SameButAnswers s.outputs seen (issue pace i s) (issue pace i (withOutputs seen s)) := by
  unfold issue
  split
  · exact .whenReady (.silent rfl)
  · exact exec_sameButAnswers seen s i

theorem step_sameButAnswers : SameButAnswers s.outputs seen (step s) (step (withOutputs seen s)) :=
  step_related rfl rfl
    (fun rest => ownMove_sameButAnswers hardware seen (takeInput rest s))
    (fun pace i p rest => issue_sameButAnswers seen (place p (takeInput rest s)) pace i)
    (fun r => .refused r)

end Answers

/-- Settles O37: each operation puts its own answer in front of whatever answers it finds. -/
theorem answersAreNeverRead : Obligations.AnswersAreNeverRead := by
  intro s seen
  have h : SameButAnswers s.outputs seen (step s) (step { s with outputs := seen }) := step_sameButAnswers seen s
  generalize step s = o, step { s with outputs := seen } = o' at h ⊢
  cases h with
  | next new t hnew ht =>
    refine ⟨fun u hu => ?_, (fun _ hf => nomatch hf), fun _ hf => nomatch hf⟩
    obtain rfl : t = u := by simpa using hu
    exact ⟨new, hnew, ht, rfl⟩
  | fault r => exact ⟨(fun _ hn => nomatch hn), fun _ hf => hf, fun _ hf => hf⟩
  | refused r => exact ⟨(fun _ hn => nomatch hn), fun _ hf => hf, fun _ hf => hf⟩

/-! ### The latch and the position while READY -/

/-- A READY state with another latch and another position. -/
def withLatch (k : CoefficientSet) (c : Channel) (i : Nat) (s : State) : State :=
  { s with K := k, seq := ⟨.ready, c, i⟩ }

/-- Two outcomes of READY states that differ in the latch and the position: the same outcome, where they were written,
or READY states that still differ in them alone. -/
inductive SameButLatch (k : CoefficientSet) (c : Channel) (i : Nat) :
    Host.Outcome State Fault Refusal → Host.Outcome State Fault Refusal → Prop where
  | written (o : Host.Outcome State Fault Refusal) : SameButLatch k c i o o
  | kept (t : State) (hr : t.seq.phase = .ready) : SameButLatch k c i (.next t) (.next (withLatch k c i t))

section Latch
variable (k : CoefficientSet) (c : Channel) (i : Nat) {s : State} (hr : s.seq.phase = .ready)
include hr

theorem SameButLatch.whenReady {f : State → State}
    (h : SameButLatch k c i (.next (f s)) (.next (f (withLatch k c i s)))) :
    SameButLatch k c i (whenReady f s) (whenReady f (withLatch k c i s)) := by
  rw [whenReady_ready hr, whenReady_ready (s := withLatch k c i s) rfl]
  exact h

/-- RESET while READY leaves the latch and the position at the free values, whatever they were (R211). -/
theorem resetMachine_withLatch (im : Impl) : resetMachine im (withLatch k c i s) = resetMachine im s := by
  have hmem : memoryAfterReset im (withLatch k c i s) = memoryAfterReset im s := by
    rw [memoryAfterReset_ready hr, memoryAfterReset_ready (s := withLatch k c i s) rfl]
    rfl
  unfold resetMachine
  rw [hmem]
  rfl

theorem setter_sameButLatch (nm : Numerics) (valid : Bool) (p : FilterParameters) :
    SameButLatch k c i (.next (setter nm valid p s)) (.next (setter nm valid p (withLatch k c i s))) := by
  cases valid with
  | true => exact .kept _ hr
  | false => exact .kept _ hr

theorem exec_sameButLatch (op : Instr) : SameButLatch k c i (exec op s) (exec op (withLatch k c i s)) := by
  have hskip : SameButLatch k c i (whenReady (raise .missingInput) s)
      (whenReady (raise .missingInput) (withLatch k c i s)) :=
    .whenReady k c i hr (.kept _ hr)
  cases op with
  | setf v => exact setter_sameButLatch k c i hr hardwareNum _ _
  | setq v => exact setter_sameButLatch k c i hr hardwareNum _ _
  | procRun =>
    have hcall : procCall hardware (withLatch k c i s) = procCall hardware s := rfl
    refine .whenReady k c i hr ?_
    rw [hcall]
    exact .written _
  | procSkipB => exact hskip
  | procSkip0 => exact hskip
  | procSkip1 => exact hskip
  | reset =>
    show SameButLatch k c i (.next (resetMachine hardware s)) (.next (resetMachine hardware (withLatch k c i s)))
    rw [resetMachine_withLatch k c i hr]
    exact .written _

/-- PROC.BEGIN writes the latch and the position, so none of the old values is left (R35, R123). -/
theorem issue_sameButLatch (pace : Pace) (op : Instr) :
    SameButLatch k c i (issue pace op s) (issue pace op (withLatch k c i s)) := by
  unfold issue
  split
  · exact .whenReady k c i hr (.written _)
  · exact exec_sameButLatch k c i hr op

theorem ownMove_sameButLatch (im : Impl) : SameButLatch k c i (ownMove im s) (ownMove im (withLatch k c i s)) := by
  rw [ownMove_ready hr, ownMove_ready (s := withLatch k c i s) rfl]
  exact .kept s hr

theorem step_sameButLatch : SameButLatch k c i (step s) (step (withLatch k c i s)) :=
  step_related rfl rfl
    (fun rest => ownMove_sameButLatch k c i (s := takeInput rest s) hr hardware)
    (fun pace op p rest => issue_sameButLatch k c i (s := place p (takeInput rest s)) hr pace op)
    (fun _ => .written _)

end Latch

/-- Settles O38: what a step from READY does not write, it carries over without reading. -/
theorem unspecifiedLatchIsNeverRead : Obligations.UnspecifiedLatchIsNeverRead := by
  intro s t k c i hr ht
  have h := step_sameButLatch k c i hr
  rw [ht, withLatch] at h
  generalize step { s with K := k, seq := ⟨.ready, c, i⟩ } = o at h ⊢
  cases h with
  | written => exact ⟨t, rfl, rfl, rfl, rfl, rfl, rfl, rfl, rfl, rfl, rfl, fun _ => ⟨rfl, rfl⟩⟩
  | kept _ ht =>
    have hnot : t.seq.phase ≠ .busy := by rw [ht]; decide
    exact ⟨_, rfl, rfl, rfl, rfl, rfl, rfl, ht.symm, rfl, rfl, rfl, fun hb => absurd hb hnot⟩

end Sys2Proof.Machine
end

section
/-! PROOFS. The block spaces and what runs beside a call (spec/20): the order of the two channels' steps is immaterial,
and setters and a call do not see each other. -/

namespace Sys2Proof.Machine

/-! ### The order of the channels -/

/-- SAMPLE transitions in any order write delay registers and cells, and nothing else (R124). -/
theorem samplesInOrder_eq (im : Impl) (order : List Channel) (i j : Nat) (s : State) :
    let t := samplesInOrder im order i j s
    t = { s with d0 := t.d0, d1 := t.d1, mem := t.mem } := by
  induction order generalizing i j s with
  | nil => rfl
  | cons c order ih =>
    cases c with
    | ch0 => exact ih (i + 1) j (sampleAt im .ch0 i s)
    | ch1 => exact ih i (j + 1) (sampleAt im .ch1 j s)

@[simp] theorem samplesInOrder_seq (im : Impl) (order : List Channel) (i j : Nat) (s : State) :
    (samplesInOrder im order i j s).seq = s.seq := by
  rw [samplesInOrder_eq]

/-- Settles O23: in either order each channel makes the same `N` steps of its own, and nothing else is written but the
sequencer. -/
theorem channelOrderIsImmaterial : Obligations.ChannelOrderIsImmaterial := by
  intro s order h0 h1 t u
  have horder := chan_samplesInOrder hardware order 0 0 (procBegin s)
  rw [h0, h1] at horder
  have hchan : ∀ c, chan t c = chan u c := fun c => by
    refine Eq.trans ?_ ((sampleSteps_call hardware s).1 c).symm
    cases c with
    | ch0 => exact horder.1
    | ch1 => exact horder.2
  obtain ⟨hd0, hd1, hmem⟩ := eq_of_chan hchan
  calc t = { procBegin s with d0 := t.d0, d1 := t.d1, mem := t.mem } :=
        samplesInOrder_eq hardware order 0 0 (procBegin s)
    _ = { procBegin s with d0 := u.d0, d1 := u.d1, mem := u.mem } := by rw [hd0, hd1, hmem]
    _ = { u with seq := t.seq } := by simp [t, u]

/-! ### The two sides of a state -/

/-- What a call in flight reads and writes: all but the parameters, the active set, the control answers and the events
to come. -/
def callSide (s : State) : State :=
  { s with P := default, C := default, inputs := [], outputs := s.outputs.filter (·.isAudio) }

/-- What the setters read and write: the parameters, the active set and the control answers, for the given `cfg`. -/
def controlSide (s : State) : State :=
  { s with
    K := default, d0 := default, d1 := default, seq := ⟨.ready, .ch0, 0⟩, mem := emptyMemory, lent := emptyMemory,
    inputs := [], outputs := s.outputs.filter (!·.isAudio), free := 0 }

@[simp] theorem callSide_seq (s : State) : (callSide s).seq = s.seq := rfl

theorem fields_of_callSide_eq {s t : State} (h : callSide s = callSide t) :
    s.cfg = t.cfg ∧ s.d0 = t.d0 ∧ s.d1 = t.d1 ∧ s.seq = t.seq ∧ s.mem = t.mem ∧
      s.outputs.filter (·.isAudio) = t.outputs.filter (·.isAudio) := by
  simp only [callSide, State.mk.injEq] at h
  tauto

theorem fields_of_controlSide_eq {s t : State} (h : controlSide s = controlSide t) :
    s.cfg = t.cfg ∧ s.P = t.P ∧ s.C = t.C ∧ s.outputs.filter (!·.isAudio) = t.outputs.filter (!·.isAudio) := by
  simp only [controlSide, State.mk.injEq] at h
  tauto

theorem callSide_procEnd (s : State) : callSide (procEnd s) = procEnd (callSide s) := rfl

theorem callSide_sampleAt (im : Impl) (c : Channel) (i : Nat) (s : State) :
    callSide (sampleAt im c i s) = sampleAt im c i (callSide s) := by
  cases c <;> rfl

theorem callSide_sampleStep (im : Impl) (s : State) : callSide (sampleStep im s) = sampleStep im (callSide s) := by
  unfold sampleStep
  rw [callSide_seq, ← callSide_sampleAt]
  rfl

theorem controlSide_procEnd (s : State) : controlSide (procEnd s) = controlSide s := rfl

theorem controlSide_sampleStep (im : Impl) (s : State) : controlSide (sampleStep im s) = controlSide s := by
  rw [sampleStep_eq]
  rfl

/-! ### The hardware's own move, on either side -/

theorem ownMove_keeps_inputs {im : Impl} {s t : State} (h : ownMove im s = .next t) : t.inputs = s.inputs := by
  obtain ⟨-, rfl⟩ | ⟨-, -, -, rfl⟩ | ⟨-, -, rfl⟩ := ownMove_eq_next h
  · rfl
  · exact procEnd_inputs s
  · exact sampleStep_inputs im s

/-- The control side is none of the sequencer's (R65, R216). -/
theorem controlSide_ownMove {im : Impl} {s t : State} (h : ownMove im s = .next t) :
    controlSide t = controlSide s := by
  obtain ⟨-, rfl⟩ | ⟨-, -, -, rfl⟩ | ⟨-, -, rfl⟩ := ownMove_eq_next h
  · rfl
  · exact controlSide_procEnd s
  · exact controlSide_sampleStep im s

/-- The sequencer reads the call's side alone (R64). -/
theorem ownMove_of_callSide_eq {im : Impl} {r s s' : State} (hsame : callSide r = callSide s)
    (h : ownMove im s = .next s') : ∃ r', ownMove im r = .next r' ∧ callSide r' = callSide s' := by
  obtain ⟨hcfg, -, -, hseq, -⟩ := fields_of_callSide_eq hsame
  obtain ⟨hp, rfl⟩ | ⟨hp, hc, hi, rfl⟩ | ⟨hp, hi, rfl⟩ := ownMove_eq_next h
  · exact ⟨r, ownMove_ready (by rw [hseq, hp]), hsame⟩
  · refine ⟨procEnd r, ?_, by rw [callSide_procEnd, callSide_procEnd, hsame]⟩
    rw [ownMove_busy (by rw [hseq, hp]), sequencerMove_end (by rw [hseq, hc]) (by rw [hseq, hcfg, hi])]
  · refine ⟨sampleStep im r, ?_, by rw [callSide_sampleStep, callSide_sampleStep, hsame]⟩
    rw [ownMove_busy (by rw [hseq, hp]), sequencerMove_sample (by rwa [hseq, hcfg])]

/-! ### A setter, on either side -/

/-- A change of state that is the setters' alone: it leaves the events and the call's side as they are, and what it
does to the control side depends on that side only. -/
structure OfControlAlone (f : State → State) : Prop where
  keepsInputs (s : State) : (f s).inputs = s.inputs
  keepsCall (s : State) : callSide (f s) = callSide s
  onControl (s : State) : controlSide (f s) = f (controlSide s)

theorem callSide_setter (nm : Numerics) (valid : Bool) (p : FilterParameters) (s : State) :
    callSide (setter nm valid p s) = callSide s := by
  cases valid <;> rfl

theorem controlSide_setter (nm : Numerics) (valid : Bool) (p : FilterParameters) (s : State) :
    controlSide (setter nm valid p s) = setter nm valid p (controlSide s) := by
  cases valid <;> rfl

theorem setter_inputs (nm : Numerics) (valid : Bool) (p : FilterParameters) (s : State) :
    (setter nm valid p s).inputs = s.inputs := by
  cases valid <;> rfl

theorem setf_ofControlAlone (nm : Numerics) (v : F) : OfControlAlone (setf nm v) where
  keepsInputs s := setter_inputs nm _ _ s
  keepsCall s := callSide_setter nm _ _ s
  onControl s := controlSide_setter nm _ _ s

theorem setq_ofControlAlone (nm : Numerics) (v : F) : OfControlAlone (setq nm v) where
  keepsInputs s := setter_inputs nm _ _ s
  keepsCall s := callSide_setter nm _ _ s
  onControl s := controlSide_setter nm _ _ s

theorem eq_none_of_not_announced {n : Nat} {p : Option Block} (hp : Supply.partWf n false p = true) : p = none := by
  cases p with
  | none => rfl
  | some b => cases hp

theorem avail_of_isSetter : ∀ {i : Instr}, isSetter i = true → i.avail = (false, false)
  | .setf _, _ => rfl
  | .setq _, _ => rfl

/-- A setter's word supplies no block (R83). -/
theorem place_of_isSetter {n : Nat} {i : Instr} {p : Supply} (hi : isSetter i = true) (hp : p.wf n i = true)
    (s : State) : place p s = s := by
  rw [Supply.wf, avail_of_isSetter hi] at hp
  obtain ⟨h0, h1⟩ := Bool.and_eq_true_iff.1 hp
  rw [place, eq_none_of_not_announced h0, eq_none_of_not_announced h1]
  rfl

/-- Beside a call stand quiet slots, and words whose step is a change of the setters' alone. -/
theorem BesideCall.cases {n : Nat} {e : Input} (h : BesideCall n e) :
    e = .quiet ∨ (e ≠ .quiet ∧ ∃ f, OfControlAlone f ∧
      ∀ (s : State) (rest : List Input), s.cfg.N = n → s.inputs = e :: rest →
        step s = .next (f (takeInput rest s))) := by
  obtain rfl | ⟨frame, p, pace, i, rfl, hdec, hi, hp⟩ := h
  · exact .inl rfl
  · refine .inr ⟨by simp, ?_⟩
    have hstep : ∀ (s : State) (rest : List Input), s.cfg.N = n → s.inputs = .word frame p pace :: rest →
        step s = exec i (takeInput rest s) := fun s rest hn hin => by
      rw [step_word hin hdec (hn ▸ hp), place_of_isSetter hi hp,
        issue_of_ne_procRun pace _ fun h => by rw [h] at hi; cases hi]
    cases i with
    | setf v => exact ⟨setf hardwareNum v, setf_ofControlAlone hardwareNum v, hstep⟩
    | setq v => exact ⟨setq hardwareNum v, setq_ofControlAlone hardwareNum v, hstep⟩
    | _ => cases hi

/-! ### A call with setters beside it -/

/-- A run that goes on after its first step. -/
theorem runSteps_succ_eq_next {k : Nat} {s u : State} (h : runSteps (k + 1) s = .next u) :
    ∃ t, step s = .next t ∧ runSteps k t = .next u := by
  rw [runSteps] at h
  split at h
  · next t ht => exact ⟨t, ht, h⟩
  · cases h
  · cases h

/-- The call's side after quiet slots with setters among them is the one after the quiet slots alone (R64, R216). -/
theorem runSteps_callSide {events rest : List Input} {r s u : State} (hev : ∀ e ∈ events, BesideCall r.cfg.N e)
    (hsame : callSide r = callSide s) (hr : r.inputs = events ++ rest)
    (hs : s.inputs = List.replicate (events.count .quiet) .quiet ++ rest)
    (hu : runSteps (events.count .quiet) s = .next u) :
    ∃ t, runSteps events.length r = .next t ∧ callSide t = callSide u ∧ t.inputs = rest := by
  induction events generalizing r s with
  | nil => cases hu; exact ⟨r, rfl, hsame, hr⟩
  | cons e events ih =>
    have htail : ∀ {r'}, step r = .next r' → ∀ e ∈ events, BesideCall r'.cfg.N e := fun h e he =>
      step_keeps_cfg h ▸ hev e (List.mem_cons_of_mem _ he)
    obtain rfl | ⟨hne, f, hf, hstep⟩ := (hev e List.mem_cons_self).cases
    · rw [List.count_cons_self] at hs hu
      obtain ⟨s', hs', hu⟩ := runSteps_succ_eq_next hu
      rw [step_quiet hs] at hs'
      obtain ⟨r', hr', hsame'⟩ := ownMove_of_callSide_eq (r := takeInput (events ++ rest) r)
        (s := takeInput (List.replicate (events.count .quiet) .quiet ++ rest) s) hsame hs'
      have hstep : step r = .next r' := (step_quiet hr).trans hr'
      rw [List.length_cons, runSteps_succ_of_next hstep]
      exact ih (htail hstep) hsame' (ownMove_keeps_inputs hr') (ownMove_keeps_inputs hs') hu
    · rw [List.count_cons_of_ne hne] at hs hu
      have hstep := hstep r (events ++ rest) rfl hr
      rw [List.length_cons, runSteps_succ_of_next hstep]
      exact ih (htail hstep) ((hf.keepsCall _).trans hsame) (hf.keepsInputs _) hs hu

/-- The control side after setters with quiet slots among them is the one after the setters alone (R65, R216). -/
theorem runSteps_controlSide {events rest : List Input} {r s t : State} (hev : ∀ e ∈ events, BesideCall r.cfg.N e)
    (hsame : controlSide r = controlSide s) (hr : r.inputs = events ++ rest)
    (hs : s.inputs = events.filter (· != .quiet) ++ rest) (ht : runSteps events.length r = .next t) :
    ∃ v, runSteps (events.filter (· != .quiet)).length s = .next v ∧ controlSide t = controlSide v := by
  induction events generalizing r s with
  | nil => cases ht; exact ⟨s, rfl, hsame⟩
  | cons e events ih =>
    obtain ⟨r', hr', ht'⟩ := runSteps_succ_eq_next ht
    have htail : ∀ e ∈ events, BesideCall r'.cfg.N e := fun e he =>
      step_keeps_cfg hr' ▸ hev e (List.mem_cons_of_mem _ he)
    obtain rfl | ⟨hne, f, hf, hstep⟩ := (hev e List.mem_cons_self).cases
    · rw [step_quiet hr] at hr'
      exact ih htail ((controlSide_ownMove hr').trans hsame) (ownMove_keeps_inputs hr') hs ht'
    · rw [List.filter_cons_of_pos (by simpa using hne)] at hs ⊢
      obtain ⟨hcfg, -⟩ := fields_of_controlSide_eq hsame
      obtain rfl : f (takeInput (events ++ rest) r) = r' := by simpa [hstep r _ rfl hr] using hr'
      rw [List.length_cons, runSteps_succ_of_next (hstep s _ (by rw [← hcfg]) hs)]
      refine ih htail ?_ (hf.keepsInputs _) (hf.keepsInputs _) ht'
      rw [hf.onControl, hf.onControl]
      exact congrArg f hsame

/-- Settles O29: the call's side is that of the call alone, the control side that of the setters alone. -/
theorem settersBesideACallAreNotSeenByIt : Obligations.SettersBesideACallAreNotSeenByIt := by
  intro s frame p events rest hr hn hdec hp hev hcount hin setters
  let s' := place p (takeInput rest s)
  let begun := procBegin (place p (takeInput (events ++ rest) s))
  have hbegin : step s = .next begun := by
    rw [step_word hin hdec hp, issue_stepwise_procRun]
    exact whenReady_ready hr
  obtain ⟨t, ht, hcall, hinputs⟩ := runSteps_callSide (r := begun)
    (s := takeInput (List.replicate (2 * s.cfg.N + 1) .quiet ++ rest) (procBegin s')) hev rfl rfl
    (by rw [hcount]; rfl) (by rw [hcount]; exact runSteps_quiet_call (s := s') rest hn)
  obtain ⟨v, hv, hcontrol⟩ := runSteps_controlSide (r := begun) (s := { s with inputs := setters ++ rest })
    hev rfl rfl rfl ht
  obtain ⟨-, hd0, hd1, hseq, hmem, haudio⟩ := fields_of_callSide_eq hcall
  obtain ⟨-, hP, hC, hanswers⟩ := fields_of_controlSide_eq hcontrol
  have houtputs : (procCall hardware s').outputs.filter (·.isAudio) =
      .audio 1#1 (some (procCall hardware s').mem) :: s.outputs.filter (·.isAudio) := by
    rw [procCall_outputs]
    rfl
  exact ⟨t, procCall hardware s', v, (runSteps_succ_of_next hbegin).trans ht, whenReady_ready hr, hv,
    hd0, hd1, hmem, by rw [hseq]; rfl, hinputs, haudio.trans houtputs, hanswers, hP, hC⟩

end Sys2Proof.Machine
end

section
/-! PROOFS. The encoding (spec/30): what the decoder reads from each port's word, the round trip between words and
operations, and the step of a table word placed in front of the host's events. -/

namespace Sys2Proof

/-! ### What each port's word decodes to -/

theorem decode_control (cmd : BitVec 33) : decode ⟨.ctl, 33, cmd.toNat⟩ = .ok (decodeCommand cmd) := by
  have hfits : ¬ 2 ^ 33 ≤ cmd.toNat := Nat.not_le.2 cmd.isLt
  simp only [decode, Port.width, ne_eq, not_true_eq_false, if_false, hfits, BitVec.ofNat_toNat, BitVec.setWidth_eq]

theorem decode_audio (hdr : BitVec 2) : decode ⟨.aud, 2, hdr.toNat⟩ = .ok (decodeHeader hdr) := by
  have hfits : ¬ 2 ^ 2 ≤ hdr.toNat := Nat.not_le.2 hdr.isLt
  simp only [decode, Port.width, ne_eq, not_true_eq_false, if_false, hfits, BitVec.ofNat_toNat, BitVec.setWidth_eq]

/-- The words that decode to an operation: any command word, any header, and the reset input at 1 (R86, R87). -/
inductive DecodeCase (f : Frame) (i : Instr) : Prop where
  | command (cmd : BitVec 33) (hf : f = ⟨.ctl, 33, cmd.toNat⟩) (hi : i = decodeCommand cmd)
  | header (hdr : BitVec 2) (hf : f = ⟨.aud, 2, hdr.toNat⟩) (hi : i = decodeHeader hdr)
  | reset (hf : f = ⟨.rst, 1, 1⟩) (hi : i = .reset)

theorem decode_eq_ok {f : Frame} {i : Instr} (h : decode f = .ok i) : DecodeCase f i := by
  obtain ⟨port, width, bits⟩ := f
  unfold decode at h
  split at h
  · cases h
  · next hwidth =>
    obtain rfl : width = port.width := not_not.1 hwidth
    split at h
    · cases h
    · next hfits =>
      have hbits : bits % 2 ^ port.width = bits := Nat.mod_eq_of_lt (Nat.not_le.1 hfits)
      cases port with
      | ctl => cases h; exact .command (BitVec.ofNat 33 bits) (congrArg (Frame.mk .ctl 33) hbits.symm) rfl
      | aud => cases h; exact .header (BitVec.ofNat 2 bits) (congrArg (Frame.mk .aud 2) hbits.symm) rfl
      | rst =>
        have hlt : bits < 2 := Nat.not_le.1 hfits
        interval_cases bits
        · cases h
        · cases h; exact .reset rfl rfl

/-! ### The selecting bit and the operand of a command word -/

theorem decodeCommand_zero_append (v : F) : decodeCommand (0#1 ++ v) = .setf v := by
  have hselect : ¬ (0#1 ++ v).getLsbD 32 = true := by rw [BitVec.getLsbD_append, if_neg (lt_irrefl 32)]; decide
  exact (if_neg hselect).trans (congrArg Instr.setf BitVec.extractLsb'_append_eq_right)

theorem decodeCommand_one_append (v : F) : decodeCommand (1#1 ++ v) = .setq v := by
  have hselect : (1#1 ++ v).getLsbD 32 = true := by rw [BitVec.getLsbD_append, if_neg (lt_irrefl 32)]; decide
  exact (if_pos hselect).trans (congrArg Instr.setq BitVec.extractLsb'_append_eq_right)

/-- A command word is its selecting bit before a 32-bit operand (R81). -/
theorem command_eq_append (cmd : BitVec 33) : ∃ v : F, cmd = 0#1 ++ v ∨ cmd = 1#1 ++ v := by
  have hparts : cmd.extractLsb' 32 1 ++ cmd.extractLsb' 0 32 = cmd := BitVec.extractLsb'_append_extractLsb'
  refine ⟨cmd.extractLsb' 0 32, ?_⟩
  obtain hselect | hselect := BitVec.eq_zero_or_eq_one (cmd.extractLsb' 32 1)
  · rw [hselect] at hparts
    exact .inl hparts.symm
  · rw [hselect] at hparts
    exact .inr hparts.symm

/-! ### Words and operations, there and back -/

theorem encode_decodeCommand (cmd : BitVec 33) : encode (decodeCommand cmd) = ⟨.ctl, 33, cmd.toNat⟩ := by
  obtain ⟨v, rfl | rfl⟩ := command_eq_append cmd
  · rw [decodeCommand_zero_append]; rfl
  · rw [decodeCommand_one_append]; rfl

theorem encode_decodeHeader (hdr : BitVec 2) : encode (decodeHeader hdr) = ⟨.aud, 2, hdr.toNat⟩ := by
  revert hdr
  decide

theorem encode_of_decode {f : Frame} {i : Instr} (h : decode f = .ok i) : f = encode i := by
  cases decode_eq_ok h with
  | command cmd hf hi => rw [hf, hi, encode_decodeCommand]
  | header hdr hf hi => rw [hf, hi, encode_decodeHeader]
  | reset hf hi => rw [hf, hi]; rfl

theorem decode_encode (i : Instr) : decode (encode i) = .ok i := by
  cases i with
  | setf v => exact (decode_control (0#1 ++ v)).trans (congrArg Except.ok (decodeCommand_zero_append v))
  | setq v => exact (decode_control (1#1 ++ v)).trans (congrArg Except.ok (decodeCommand_one_append v))
  | procRun => rfl
  | procSkipB => rfl
  | procSkip0 => rfl
  | procSkip1 => rfl
  | reset => rfl

/-- Settles O1: the decoder undoes the encoder, and the encoder the decoder. -/
theorem decodeAndEncodeAgree : Obligations.DecodeAndEncodeAgree :=
  fun _ i => ⟨encode_of_decode, fun h => h ▸ decode_encode i⟩

/-- Settles O2: each word is the one that `encode` writes for its operation. -/
theorem writtenWordsDecode : Obligations.WrittenWordsDecode :=
  ⟨decode_encode (.setf 0x447A0000#32), decode_encode (.setq 0x3F000000#32), decode_encode .procRun,
    decode_encode .procSkipB, decode_encode .procSkip0, decode_encode .procSkip1, decode_encode .reset⟩

theorem isTick_decodeHeader (hdr : BitVec 2) : Machine.isTick (decodeHeader hdr) = true := by
  revert hdr
  decide

/-- Settles O3: either selecting bit gives a setter, and each of the four headers a block transaction. -/
theorem everyWordSelectsAnOperation : Obligations.EveryWordSelectsAnOperation := by
  refine ⟨fun cmd => ?_, fun hdr => ⟨decodeHeader hdr, decode_audio hdr, isTick_decodeHeader hdr⟩⟩
  rw [decode_control]
  obtain ⟨v, rfl | rfl⟩ := command_eq_append cmd
  · exact ⟨v, .inl (congrArg Except.ok (decodeCommand_zero_append v))⟩
  · exact ⟨v, .inr (congrArg Except.ok (decodeCommand_one_append v))⟩

theorem decode_of_decodeTableWord {nbits w : Nat} {i : Instr} (h : decodeTableWord nbits w = some i) :
    decode (tableFrame nbits w) = .ok i := by
  unfold decodeTableWord at h
  split at h
  · next hdec => cases h; exact hdec
  · cases h

end Sys2Proof

namespace Sys2Proof.Machine

/-! ### A table word placed in front of the events -/

theorem partWf_standing {n : Nat} {b : Block} (flag : Bool) (h : Block.wf n b = true) :
    Supply.partWf n flag (if flag then some b else none) = true := by
  cases flag with
  | false => rfl
  | true => exact h

/-- The blocks that stand in canonical block spaces fit any header (R56, R83). -/
theorem standingSupply_wf {n : Nat} {m : Memory} (i : Instr) (h : Memory.wf n m = true) :
    (standingSupply i m).wf n i = true := by
  obtain ⟨h0, h1⟩ := Bool.and_eq_true_iff.1 h
  exact Bool.and_eq_true_iff.2 ⟨partWf_standing i.avail.1 h0, partWf_standing i.avail.2 h1⟩

theorem placePart_standing (flag : Bool) (b : Block) : placePart (if flag then some b else none) b = b := by
  cases flag <;> rfl

/-- Blocks supplied from where they stand leave the block spaces as they are. -/
theorem place_standingSupply (i : Instr) (s : State) : place (standingSupply i s.mem) s = s := by
  simp only [place, standingSupply, placePart_standing]

theorem withFetchWord_inputs {s : State} {nbits w : Nat} {i : Instr} (h : decode (tableFrame nbits w) = .ok i) :
    (s.withFetchWord nbits w).inputs =
      .word (tableFrame nbits w) (standingSupply i s.mem) .atomic :: s.inputs := by
  simp only [State.withFetchWord, h]

theorem takeInput_withFetchWord (s : State) (nbits w : Nat) : takeInput s.inputs (s.withFetchWord nbits w) = s := rfl

/-- Settles O5: the step takes the placed word off again, with blocks that stand in place already (log 17, 18). -/
theorem placedWordRunsNext : Obligations.PlacedWordRunsNext := by
  intro s nbits w i htable hmem
  have hdec := decode_of_decodeTableWord htable
  have hsupply : (standingSupply i s.mem).wf (s.withFetchWord nbits w).cfg.N i = true := standingSupply_wf i hmem
  rw [step_word (withFetchWord_inputs hdec) hdec hsupply, takeInput_withFetchWord, place_standingSupply, issue_atomic]

end Sys2Proof.Machine
end

section
/-! PROOFS. The Coefficient Engine (spec/40): the setters store and recompute or only answer, validity is an order of
real numbers, and the coefficient transform is the spec's, also where its result degenerates. -/

namespace Sys2Proof.Machine

/-! ### The order of patterns is the order of their real numbers -/

/-- The lower 31 bits are the exponent field above the fraction (R151). -/
theorem low_eq_fields (x : F) : x.toNat % 2 ^ 31 = expField x * 2 ^ 23 + fracField x := by
  simp only [expField, fracField]
  omega

theorem fracField_lt (x : F) : fracField x < 2 ^ 23 := Nat.mod_lt _ (by decide)

/-- A magnitude lies below the least one of the next exponent. -/
theorem magnitude_lt_next_binade (x : F) : magnitude x < 2 ^ 23 * 2 ^ (expField x + 1) := by
  have hfrac := fracField_lt x
  by_cases he : expField x = 0
  · simp only [magnitude, significand, he, if_true, zero_le, sup_of_le_right]
    omega
  · have hsig := (significand_of_normal he).2
    rw [magnitude, max_eq_left (by omega)]
    calc significand x * 2 ^ expField x < 2 ^ 24 * 2 ^ expField x := Nat.mul_lt_mul_of_pos_right hsig (by positivity)
      _ = 2 ^ 23 * 2 ^ (expField x + 1) := by ring

/-- A normal magnitude is no less than the least one of its exponent. -/
theorem binade_le_magnitude {x : F} (he : expField x ≠ 0) : 2 ^ 23 * 2 ^ expField x ≤ magnitude x := by
  rw [magnitude, max_eq_left (by omega)]
  exact Nat.mul_le_mul_right _ (significand_of_normal he).1

/-- Magnitudes are ordered as the lower 31 bits are: by the exponent field, and within one by the fraction. -/
theorem magnitude_lt_of_low_lt {x y : F} (h : x.toNat % 2 ^ 31 < y.toNat % 2 ^ 31) : magnitude x < magnitude y := by
  rw [low_eq_fields, low_eq_fields] at h
  have hx := fracField_lt x
  have hy := fracField_lt y
  obtain he | he : expField x < expField y ∨ expField x = expField y := by omega
  · calc magnitude x < 2 ^ 23 * 2 ^ (expField x + 1) := magnitude_lt_next_binade x
      _ ≤ 2 ^ 23 * 2 ^ expField y := Nat.mul_le_mul_left _ (Nat.pow_le_pow_right two_pos he)
      _ ≤ magnitude y := binade_le_magnitude (by omega)
  · have hsig : significand x < significand y := by
      simp only [significand, he]
      split <;> omega
    rw [magnitude, magnitude, he]
    exact Nat.mul_lt_mul_of_pos_right hsig (by positivity)

theorem magnitude_eq_of_low_eq {x y : F} (h : x.toNat % 2 ^ 31 = y.toNat % 2 ^ 31) : magnitude x = magnitude y := by
  rw [low_eq_fields, low_eq_fields] at h
  have hx := fracField_lt x
  have hy := fracField_lt y
  have he : expField x = expField y := by omega
  have hf : fracField x = fracField y := by omega
  simp only [magnitude, significand, he, hf]

theorem magnitude_lt_iff {x y : F} : magnitude x < magnitude y ↔ x.toNat % 2 ^ 31 < y.toNat % 2 ^ 31 := by
  refine ⟨fun h => ?_, magnitude_lt_of_low_lt⟩
  obtain hlt | heq | hgt := lt_trichotomy (x.toNat % 2 ^ 31) (y.toNat % 2 ^ 31)
  · exact hlt
  · exact absurd h (magnitude_eq_of_low_eq heq).not_lt
  · exact absurd h (magnitude_lt_of_low_lt hgt).asymm

/-- `orderKey` orders the patterns as their signed magnitudes are ordered (R157). -/
theorem orderKey_lt_iff {x y : F} : orderKey x < orderKey y ↔ scaledInt x < scaledInt y := by
  have hxy := magnitude_lt_iff (x := x) (y := y)
  have hyx := magnitude_lt_iff (x := y) (y := x)
  have hx : 0 < magnitude x ↔ 0 < x.toNat % 2 ^ 31 := magnitude_lt_iff (x := 0#32)
  have hy : 0 < magnitude y ↔ 0 < y.toNat % 2 ^ 31 := magnitude_lt_iff (x := 0#32)
  simp only [orderKey, scaledInt]
  split_ifs <;> omega

/-- The real number of a pattern is its signed magnitude in units of `2^-150` (R151). -/
theorem realValue_eq_scaledInt (x : F) : realValue x = scaledInt x / 2 ^ 150 := by
  rw [realValue_eq_magnitude, scaledInt]
  split <;> push_cast <;> ring

theorem scaledInt_lt_iff {x y : F} : scaledInt x < scaledInt y ↔ realValue x < realValue y := by
  rw [realValue_eq_scaledInt, realValue_eq_scaledInt, div_lt_div_iff_of_pos_right (by positivity), Int.cast_lt]

/-- The ordered comparison is the order of the real numbers, and false for a NaN (R157). -/
theorem fpLt_iff {a b : F} : fpLt a b = true ↔ isNaN a = false ∧ isNaN b = false ∧ realValue a < realValue b := by
  simp [fpLt, orderKey_lt_iff, scaledInt_lt_iff, and_assoc]

/-! ### Validity -/

/-- A pattern up to an infinity's is no NaN (R151). -/
theorem isNaN_withSign (neg : Bool) {low : Nat} (h : low ≤ infLow) : isNaN (withSign neg low) = false := by
  simp only [infLow] at h
  have hlow : low < 2 ^ 31 := by omega
  refine Bool.eq_false_iff.2 fun hnan => ?_
  simp only [isNaN, expField_withSign neg hlow, fracField_withSign neg hlow, Bool.and_eq_true, beq_iff_eq,
    bne_iff_ne] at hnan
  omega

/-- Rounding a real number never gives a NaN (R152, R155). -/
theorem isNaN_roundQuotient (neg : Bool) (p q : Nat) : isNaN (roundQuotient neg p q) = false := by
  simp only [roundQuotient]
  split
  · exact isNaN_withSign neg le_rfl
  · split
    · exact isNaN_withSign neg le_rfl
    · next h => exact isNaN_withSign neg (Nat.le_of_not_le h)

theorem isNaN_nyquist {fs : F} (h : fpFinite fs = true) : isNaN (nyquist hardwareNum fs) = false := by
  rw [nyquist_eq_roundQuotient h, isNaN_roundQuotient]

/-- `fgt(v, ZERO)` of a finite value: its real number is positive. -/
theorem fpGt_zero_iff {v : F} (h : fpFinite v = true) : fpGt v 0x00000000#32 = true ↔ 0 < realValue v := by
  have hzero : realValue 0x00000000#32 = 0 := by simp [realValue]
  have hnan : isNaN 0x00000000#32 = false := by decide
  rw [fpGt, fpLt_iff, hzero]
  simp [hnan, not_isNaN_of_fpFinite h]

/-- A valid quality factor is finite and positive (R101). -/
theorem validQ_iff {v : F} : validQ hardwareNum v = true ↔ fpFinite v = true ∧ 0 < realValue v :=
  Bool.and_eq_true_iff.trans (and_congr_right fpGt_zero_iff)

/-- A valid frequency is a valid quality factor below Nyquist (R101). -/
theorem validF_iff {fs v : F} (hfs : fpFinite fs = true) :
    validF hardwareNum fs v = true ↔
      fpFinite v = true ∧ 0 < realValue v ∧ realValue v < realValue (nyquist hardwareNum fs) := by
  have hsplit : validF hardwareNum fs v = true ↔
      validQ hardwareNum v = true ∧ fpLt v (nyquist hardwareNum fs) = true := Bool.and_eq_true_iff
  rw [hsplit, validQ_iff, and_assoc]
  refine and_congr_right fun hv => and_congr_right fun _ => ?_
  simp [fpLt_iff, not_isNaN_of_fpFinite hv, isNaN_nyquist hfs]

/-- Settles O11: the comparisons are those of the real numbers, and half of a finite rate is no NaN. -/
theorem validityIsPositiveFiniteBelowNyquist : Obligations.ValidityIsPositiveFiniteBelowNyquist :=
  fun _ _ hfs => ⟨validF_iff (validQ_iff.1 hfs).1, validQ_iff⟩

/-! ### The setters -/

theorem exec_setf (v : BitVec 32) (s : State) :
    exec (.setf v) s = .next (setter hardwareNum (validF hardwareNum s.cfg.FS v) ⟨v, s.P.q⟩ s) := rfl

theorem exec_setq (v : BitVec 32) (s : State) :
    exec (.setq v) s = .next (setter hardwareNum (validQ hardwareNum v) ⟨s.P.f, v⟩ s) := rfl

/-- The state after a setter, field by field (R102, R103, R110). -/
theorem setter_eq_ite (nm : Numerics) (valid : Bool) (p : FilterParameters) (s : State) :
    setter nm valid p s =
      if valid then { s with P := p, C := recompute nm p.f p.q s.cfg.FS, outputs := .control 0#1 :: s.outputs }
      else { s with outputs := .control 1#1 :: s.outputs } := by
  obtain ⟨rfl, h⟩ | ⟨rfl, h⟩ := setter_cases nm valid p s
  · exact h
  · exact h

/-- Settles O9: SETF is the setter of the frequency, with the stored quality factor. -/
theorem setfCommitsOrRejects : Obligations.SetfCommitsOrRejects := by
  intro v s
  rw [exec_setf, setter_eq_ite]

/-- Settles O10: SETQ is the setter of the quality factor, with the stored frequency. -/
theorem setqCommitsOrRejects : Obligations.SetqCommitsOrRejects := by
  intro v s
  rw [exec_setq, setter_eq_ite]

/-! ### The coefficient transform -/

/-- Settles O13: the definition, with the constants of R153 in place. -/
theorem recomputeFollowsTheFormulas : Obligations.RecomputeFollowsTheFormulas :=
  fun _ _ _ => rfl

/-! ### The choice of NaN patterns shows in NaNs only -/

/-- Two values are the same, or both are NaNs. -/
def SameUpToNaN (x y : F) : Prop := x = y ∨ isNaN x = true ∧ isNaN y = true

theorem SameUpToNaN.refl (x : F) : SameUpToNaN x x := .inl rfl

theorem SameUpToNaN.eq {x y : F} (h : SameUpToNaN x y) (hy : isNaN y = false) : x = y := by
  obtain h | ⟨-, hnan⟩ := h
  · exact h
  · simp [hnan] at hy

theorem SameUpToNaN.isNaN_left {x y : F} (h : SameUpToNaN x y) (hy : isNaN y = true) : isNaN x = true := by
  obtain rfl | ⟨hx, -⟩ := h
  · exact hy
  · exact hx

/-- Two operations that pass NaNs on agree on operands that agree, if they agree on equal ones. -/
theorem SameUpToNaN.map₂ {g g' : F → F → F} (same : ∀ a b, SameUpToNaN (g a b) (g' a b))
    (hg : ∀ {a b}, isNaN a = true ∨ isNaN b = true → isNaN (g a b) = true)
    (hg' : ∀ {a b}, isNaN a = true ∨ isNaN b = true → isNaN (g' a b) = true)
    {a a' b b' : F} (ha : SameUpToNaN a a') (hb : SameUpToNaN b b') : SameUpToNaN (g a b) (g' a' b') := by
  obtain rfl | ⟨ha, ha'⟩ := ha
  · obtain rfl | ⟨hb, hb'⟩ := hb
    · exact same a b
    · exact .inr ⟨hg (.inr hb), hg' (.inr hb')⟩
  · exact .inr ⟨hg (.inl ha), hg' (.inl ha')⟩

section NaNPatterns
variable (nan nan' : NanSite → F → F → F) {a a' b b' : F}

theorem fpNeg_sameUpToNaN (ha : SameUpToNaN a a') : SameUpToNaN (fpNeg nan a) (fpNeg nan' a') := by
  obtain rfl | ⟨ha, ha'⟩ := ha
  · by_cases h : isNaN a = true
    · exact .inr ⟨isNaN_fpNeg nan h, isNaN_fpNeg nan' h⟩
    · exact .inl (by simp [fpNeg, h])
  · exact .inr ⟨isNaN_fpNeg nan ha, isNaN_fpNeg nan' ha'⟩

theorem fpAdd_sameUpToNaN : SameUpToNaN a a' → SameUpToNaN b b' → SameUpToNaN (fpAdd nan a b) (fpAdd nan' a' b') := by
  refine .map₂ (fun a b => ?_) (isNaN_fpAdd nan) (isNaN_fpAdd nan')
  unfold fpAdd
  split_ifs <;> simp [SameUpToNaN]

theorem fpSub_sameUpToNaN (ha : SameUpToNaN a a') (hb : SameUpToNaN b b') :
    SameUpToNaN (fpSub nan a b) (fpSub nan' a' b') :=
  fpAdd_sameUpToNaN nan nan' ha (fpNeg_sameUpToNaN nan nan' hb)

theorem fpMul_sameUpToNaN : SameUpToNaN a a' → SameUpToNaN b b' → SameUpToNaN (fpMul nan a b) (fpMul nan' a' b') := by
  refine .map₂ (fun a b => ?_) (isNaN_fpMul nan) (isNaN_fpMul nan')
  unfold fpMul
  split_ifs <;> simp [SameUpToNaN]

theorem fpDiv_sameUpToNaN : SameUpToNaN a a' → SameUpToNaN b b' → SameUpToNaN (fpDiv nan a b) (fpDiv nan' a' b') := by
  refine .map₂ (fun a b => ?_) (isNaN_fpDiv nan) (isNaN_fpDiv nan')
  unfold fpDiv
  split_ifs <;> simp [SameUpToNaN]

theorem fpFinite_of_isNaN (h : isNaN a = true) : fpFinite a = false := by simp [fpFinite_eq, h]

theorem trig_sameUpToNaN (site : NanSite) (g : F → F) (ha : SameUpToNaN a a') :
    SameUpToNaN (trig nan site g a) (trig nan' site g a') := by
  obtain rfl | ⟨ha, ha'⟩ := ha
  · unfold trig
    split <;> simp [SameUpToNaN]
  · simp [SameUpToNaN, trig, fpFinite_of_isNaN ha, fpFinite_of_isNaN ha']

end NaNPatterns

/-- Two coefficient sets are the same but for the patterns of NaNs. -/
structure SetUpToNaN (k l : CoefficientSet) : Prop where
  b0 : SameUpToNaN k.b0 l.b0
  b1 : SameUpToNaN k.b1 l.b1
  b2 : SameUpToNaN k.b2 l.b2
  a1 : SameUpToNaN k.a1 l.a1
  a2 : SameUpToNaN k.a2 l.a2

/-- The coefficients depend on the choice of NaN patterns only in which NaN they are (R104, R155). -/
theorem recompute_setUpToNaN (nan nan' : NanSite → F → F → F) (sin cos : F → F) (f q fs : F) :
    SetUpToNaN (recompute (binary32 nan sin cos) f q fs) (recompute (binary32 nan' sin cos) f q fs) := by
  have hwc := fpDiv_sameUpToNaN nan nan' (fpMul_sameUpToNaN nan nan' (.refl 0x40C90FDB#32) (.refl f)) (.refl fs)
  have hcw := trig_sameUpToNaN nan nan' .cos cos hwc
  have hsw := trig_sameUpToNaN nan nan' .sin sin hwc
  have halpha := fpDiv_sameUpToNaN nan nan' hsw (fpMul_sameUpToNaN nan nan' (.refl 0x40000000#32) (.refl q))
  have ht := fpAdd_sameUpToNaN nan nan' (.refl 0x3F800000#32) hcw
  have hden1 := fpAdd_sameUpToNaN nan nan' (.refl 0x3F800000#32) halpha
  have hden2 := fpAdd_sameUpToNaN nan nan' (.refl 0x40000000#32)
    (fpMul_sameUpToNaN nan nan' (.refl 0x40000000#32) halpha)
  have hb0 := fpDiv_sameUpToNaN nan nan' ht hden2
  exact {
    b0 := hb0
    b1 := fpDiv_sameUpToNaN nan nan' (fpNeg_sameUpToNaN nan nan' ht) hden1
    b2 := hb0
    a1 := fpDiv_sameUpToNaN nan nan'
      (fpMul_sameUpToNaN nan nan' (fpNeg_sameUpToNaN nan nan' (.refl 0x40000000#32)) hcw) hden1
    a2 := fpDiv_sameUpToNaN nan nan' (fpSub_sameUpToNaN nan nan' (.refl 0x3F800000#32) halpha) hden1 }

theorem coefficientSet_ext {k l : CoefficientSet} (h0 : k.b0 = l.b0) (h1 : k.b1 = l.b1) (h2 : k.b2 = l.b2)
    (h3 : k.a1 = l.a1) (h4 : k.a2 = l.a2) : k = l := by
  cases k
  simp only at h0 h1 h2 h3 h4
  rw [h0, h1, h2, h3, h4]

theorem SetUpToNaN.eq {k l : CoefficientSet} (h : SetUpToNaN k l) (hl : FiniteSet l) : k = l := by
  obtain ⟨h0, h1, h2, h3, h4⟩ := hl
  exact coefficientSet_ext (h.b0.eq (not_isNaN_of_fpFinite h0)) (h.b1.eq (not_isNaN_of_fpFinite h1))
    (h.b2.eq (not_isNaN_of_fpFinite h2)) (h.a1.eq (not_isNaN_of_fpFinite h3)) (h.a2.eq (not_isNaN_of_fpFinite h4))

/-- A set that agrees with one whose last coefficient alone is a NaN. -/
theorem SetUpToNaN.exists_a2 {k l : CoefficientSet} (h : SetUpToNaN k l) (h0 : isNaN l.b0 = false)
    (h1 : isNaN l.b1 = false) (h2 : isNaN l.b2 = false) (h3 : isNaN l.a1 = false) (h4 : isNaN l.a2 = true) :
    ∃ x, isNaN x = true ∧ k = ⟨l.b0, l.b1, l.b2, l.a1, x⟩ :=
  ⟨k.a2, h.a2.isNaN_left h4, coefficientSet_ext (h.b0.eq h0) (h.b1.eq h1) (h.b2.eq h2) (h.a1.eq h3) rfl⟩

/-! ### Sets computed at one angle -/

/-- The one quiet NaN `0x7FC00000` as every free NaN pattern. -/
def quietNaN : NanSite → F → F → F := fun _ _ _ => 0x7FC00000#32

/-- The arithmetic with the quiet NaN, and the same sine and cosine at every angle: what a set at one angle can be
evaluated with. -/
def numAt (sw cw : F) : Numerics := binary32 quietNaN (fun _ => sw) (fun _ => cw)

section OneAngle
variable (nan : NanSite → F → F → F) {sin cos : F → F} {f q fs wc sw cw : F} {k : CoefficientSet}
  (hwc : fpDiv quietNaN (fpMul quietNaN 0x40C90FDB#32 f) fs = wc) (hs : sin wc = sw) (hc : cos wc = cw)
  (hk : recompute (numAt sw cw) f q fs = k)
include hwc hs hc hk

/-- The transform asks for the sine and cosine at the angle `wc = 2π·f/fs` only (R104, R105). -/
theorem recompute_setUpToNaN_of_angle : SetUpToNaN (recompute (binary32 nan sin cos) f q fs) k := by
  have hangle : recompute (binary32 quietNaN sin cos) f q fs = k := by
    rw [← hk]
    simp only [recompute, numAt, binary32, trig, hwc, hs, hc]
  rw [← hangle]
  exact recompute_setUpToNaN nan quietNaN sin cos f q fs

theorem recompute_eq_of_angle (hfin : FiniteSet k) : recompute (binary32 nan sin cos) f q fs = k :=
  (recompute_setUpToNaN_of_angle nan hwc hs hc hk).eq hfin

end OneAngle

/-- `2π·1000/48000` at the machine's precision. -/
theorem angle_oneKilohertz :
    fpDiv quietNaN (fpMul quietNaN 0x40C90FDB#32 0x447A0000#32) 0x473B8000#32 = 0x3E060A92#32 := by decide +kernel

section AtOneKilohertz
variable (nan : NanSite → F → F → F) {sin cos : F → F} (hs : sin 0x3E060A92#32 = 0x3E05A8A9#32)
  (hc : cos 0x3E060A92#32 = 0x3F7DCF55#32)
include hs hc

/-- R109 (a): `alpha` overflows, the first four coefficients are zeros and `a2` is `-infinity / +infinity`. -/
theorem recompute_alpha_infinite :
    ∃ x, isNaN x = true ∧ recompute (binary32 nan sin cos) 0x447A0000#32 0x00000001#32 0x473B8000#32 =
      ⟨0x00000000#32, 0x80000000#32, 0x00000000#32, 0x80000000#32, x⟩ := by
  have hset : recompute (numAt 0x3E05A8A9#32 0x3F7DCF55#32) 0x447A0000#32 0x00000001#32 0x473B8000#32 =
      ⟨0x00000000#32, 0x80000000#32, 0x00000000#32, 0x80000000#32, 0x7FC00000#32⟩ := by decide +kernel
  exact (recompute_setUpToNaN_of_angle nan angle_oneKilohertz hs hc hset).exists_a2 rfl rfl rfl rfl rfl

/-- R109 (b): `alpha` is so large that one is lost beside it, and `a2` is minus one. -/
theorem recompute_alpha_large :
    recompute (binary32 nan sin cos) 0x447A0000#32 0x3089705F#32 0x473B8000#32 =
      ⟨0x32830E9C#32, 0xB3030E9C#32, 0x32830E9C#32, 0xB3027E7B#32, 0xBF800000#32⟩ :=
  recompute_eq_of_angle nan angle_oneKilohertz hs hc (by decide +kernel) ⟨rfl, rfl, rfl, rfl, rfl⟩

/-- R109 (d): `2Q` overflows, so `alpha` is zero and `a2` is one. -/
theorem recompute_alpha_zero :
    recompute (binary32 nan sin cos) 0x447A0000#32 0x7F7FFFFF#32 0x473B8000#32 =
      ⟨0x3F7EE7AA#32, 0xBFFEE7AA#32, 0x3F7EE7AA#32, 0xBFFDCF55#32, 0x3F800000#32⟩ :=
  recompute_eq_of_angle nan angle_oneKilohertz hs hc (by decide +kernel) ⟨rfl, rfl, rfl, rfl, rfl⟩

end AtOneKilohertz

/-- R109 (c): the angle underflows to zero, and so `alpha` is zero. -/
theorem recompute_angle_zero (nan : NanSite → F → F → F) {sin cos : F → F} (hs : sin 0x00000000#32 = 0x00000000#32)
    (hc : cos 0x00000000#32 = 0x3F800000#32) :
    recompute (binary32 nan sin cos) 0x00000001#32 0x3F800000#32 0x473B8000#32 =
      ⟨0x3F800000#32, 0xC0000000#32, 0x3F800000#32, 0xC0000000#32, 0x3F800000#32⟩ :=
  recompute_eq_of_angle nan (by decide +kernel) hs hc (by decide +kernel) ⟨rfl, rfl, rfl, rfl, rfl⟩

/-- R109 (e): just below Nyquist the cosine is minus one, and the feed-forward coefficients are zeros. -/
theorem recompute_below_nyquist (nan : NanSite → F → F → F) {sin cos : F → F}
    (hs : sin 0x40490DB6#32 = 0x39092888#32) (hc : cos 0x40490DB6#32 = 0xBF800000#32) :
    recompute (binary32 nan sin cos) 0x46BB7E00#32 0x3F800000#32 0x473B8000#32 =
      ⟨0x00000000#32, 0x80000000#32, 0x00000000#32, 0x3FFFFBB6#32, 0x3F7FF76D#32⟩ :=
  recompute_eq_of_angle nan (by decide +kernel) hs hc (by decide +kernel) ⟨rfl, rfl, rfl, rfl, rfl⟩

/-- Settles O14, case by case of R109: the sets evaluated with one NaN are the sets for every choice of NaNs. -/
theorem degenerateSetsAreComputed : Obligations.DegenerateSetsAreComputed :=
  fun nan _ _ => ⟨fun hs hc =>
      ⟨recompute_alpha_infinite nan hs hc, recompute_alpha_large nan hs hc, recompute_alpha_zero nan hs hc⟩,
    recompute_angle_zero nan, recompute_below_nyquist nan⟩

end Sys2Proof.Machine
end

section
/-! PROOFS. The Block Processor (spec/41): what a call makes of each channel's registers and block, what its transitions
do one by one, when it is a fault and when it ends, the fate of zeros, NaNs and out-of-range samples, and exact
dequantisation. -/

namespace Sys2Proof.Machine

/-! ### What leaves a channel's registers alone -/

theorem delays_congr {s t : State} (h0 : t.d0 = s.d0) (h1 : t.d1 = s.d1) (c : Channel) : delays t c = delays s c := by
  cases c with
  | ch0 => exact h0
  | ch1 => exact h1

section Registers
variable (s : State) (c : Channel)

theorem delays_withMem (m : Memory) : delays { s with mem := m } c = delays s c := delays_congr rfl rfl c

@[simp] theorem delays_respond (r : Response) : delays (respond r s) c = delays s c := delays_congr rfl rfl c

@[simp] theorem delays_place (p : Supply) : delays (place p s) c = delays s c := delays_congr rfl rfl c

@[simp] theorem delays_takeInput (rest : List Input) : delays (takeInput rest s) c = delays s c :=
  delays_congr rfl rfl c

@[simp] theorem delays_procBegin : delays (procBegin s) c = delays s c := delays_congr rfl rfl c

@[simp] theorem delays_procEnd : delays (procEnd s) c = delays s c := delays_congr rfl rfl c

@[simp] theorem delays_setter (nm : Numerics) (valid : Bool) (p : FilterParameters) :
    delays (setter nm valid p s) c = delays s c := by
  obtain ⟨-, -, h0, h1, -⟩ := setter_frame nm valid p s
  exact delays_congr h0 h1 c

end Registers

/-! ### The transitions of a call, one by one -/

/-- A PROC.RUN's payload is both blocks (R83). -/
theorem supply_of_wf_procRun {n : Nat} {p : Supply} (h : p.wf n .procRun = true) :
    ∃ m : Memory, p = ⟨some m.b0, some m.b1⟩ := by
  obtain ⟨_ | b0, _ | b1⟩ := p
  · cases h
  · cases h
  · simp [Supply.wf, Supply.partWf, Instr.avail] at h
  · exact ⟨⟨b0, b1⟩, rfl⟩

/-- Settles O15: both supplied blocks are put in place, and PROC.BEGIN runs on them. -/
theorem beginLoadsTheLatch : Obligations.BeginLoadsTheLatch := by
  intro s frame p rest hin hdec hp hr
  obtain ⟨m, rfl⟩ := supply_of_wf_procRun hp
  refine ⟨m, rfl, ?_⟩
  rw [step_word hin hdec hp, issue_stepwise_procRun]
  exact whenReady_ready hr

theorem step_sample {s : State} (hin : s.inputs = []) (hb : s.seq.phase = .busy) (hi : s.seq.i < s.cfg.N) :
    step s = .next (sampleStep hardware s) := by
  rw [step_nil hin, ownMove_busy hb, sequencerMove_sample hi]

theorem step_end {s : State} (hin : s.inputs = []) (hb : s.seq.phase = .busy) (hc : s.seq.c = .ch1)
    (hi : s.seq.i = s.cfg.N) : step s = .next (procEnd s) := by
  rw [step_nil hin, ownMove_busy hb, sequencerMove_end hc hi]

/-- The reference order, written as one choice (R129). -/
theorem nextPosition_eq_ite (n : Nat) (ph : Phase) (c : Channel) (i : Nat) :
    nextPosition n ⟨ph, c, i⟩ =
      if i + 1 < n then ⟨.busy, c, i + 1⟩ else if c = .ch0 then ⟨.busy, .ch1, 0⟩ else ⟨.busy, .ch1, n⟩ := by
  unfold nextPosition
  cases c <;> rfl

/-- Settles O16: the step is the SAMPLE of its channel and cell, and each conjunct is one of its rules. -/
theorem sampleFollowsTheFourSteps : Obligations.SampleFollowsTheFourSteps := by
  intro s c i hin hseq hi hm n d x out
  have hstep : step s = .next (sampleStep hardware s) :=
    step_sample hin (by rw [hseq]) (by rw [hseq]; exact hi)
  have hmem : (sampleStep hardware s).mem = memWrite s.mem c i (quantise hardware (n.fmul out s.cfg.outScale)) := by
    rw [sampleStep_mem, hseq, sampleAt_mem]
    rfl
  have hown : delays (sampleStep hardware s) c = ⟨x, d.d0, out, d.d2⟩ := by
    rw [sampleStep_delays, hseq, sampleAt_delays_same]
    rfl
  refine ⟨_, hstep, hown, ?_, fun c' hc => ?_, fun c' j hj => ?_, ?_, sampleStep_eq hardware s⟩
  · rw [hmem, memRead_memWrite_same hm]
  · rw [sampleStep_delays, hseq, sampleAt_delays_other hardware i s hc]
  · rw [hmem, memRead_memWrite_other s.mem _ hj]
  · rw [sampleStep_seq, hseq, nextPosition_eq_ite]

/-- Settles O17: at `(1, N)` the hardware's own move is PROC.END. -/
theorem endReturnsBothBlocks : Obligations.EndReturnsBothBlocks := by
  intro s hin hseq
  rw [step_end hin (by rw [hseq]) (by rw [hseq]) (by rw [hseq]), procEnd, hseq]
  rfl

/-! ### The block transactions -/

/-- Settles O19: a skip while READY only answers. -/
theorem skipChangesNothing : Obligations.SkipChangesNothing := by
  intro s i hi hr
  obtain rfl | rfl | rfl := hi
  · exact whenReady_ready hr
  · exact whenReady_ready hr
  · exact whenReady_ready hr

theorem exec_busy {i : Instr} {s : State} (hi : isTick i = true) (hb : s.seq.phase = .busy) :
    exec i s = .fault .deadlineMiss := by
  rw [← issue_atomic]
  exact issue_busy hi hb

/-- Settles O20: placing the supplied blocks leaves the sequencer BUSY, and a tick issued then is a DeadlineMiss. -/
theorem tickWhileBusyIsDeadlineMiss : Obligations.TickWhileBusyIsDeadlineMiss := by
  intro s i hi hb
  have htick : isTick i = true := by obtain rfl | rfl | rfl | rfl := hi <;> rfl
  refine ⟨exec_busy htick hb, fun o rest hslot hdec hp => ?_⟩
  rw [step_offered hslot hdec hp]
  exact issue_busy htick hb

/-! ### A call as one function of each channel -/

theorem exec_procRun_ready {s : State} (h : s.seq.phase = .ready) : exec .procRun s = .next (procCall hardware s) :=
  (exec_procRun s).trans (whenReady_ready h)

@[simp] theorem chan_procEnd (s : State) (c : Channel) : chan (procEnd s) c = chan s c := by
  cases c <;> rfl

/-- A call makes its `N` steps on each channel's registers and block, and reads nothing of the other's (R132). -/
theorem chan_procCall (im : Impl) (s : State) (c : Channel) :
    chan (procCall im s) c = chanRun im s.cfg s.C s.cfg.N 0 (chan s c) := by
  rw [procCall, chan_procEnd]
  exact (sampleSteps_call im s).1 c

/-- What every step of a channel keeps, its whole run keeps. -/
theorem chanRun_keeps {im : Impl} {cfg : Config} {k : CoefficientSet} {Q : ChannelState × Block → Prop}
    (hstep : ∀ i x, Q x → Q (chanStep im cfg k i x)) (n i : Nat) {x : ChannelState × Block} (h : Q x) :
    Q (chanRun im cfg k n i x) := by
  induction n generalizing i x with
  | zero => exact h
  | succ n ih => exact ih (i + 1) (hstep i x h)

/-- On canonical blocks a call is `Run` of R131 on each channel's registers and cells. -/
theorem procCall_eq_filterRun (im : Impl) {s : State} (hm : Memory.wf s.cfg.N s.mem = true) (c : Channel) :
    (delays (procCall im s) c, blockCells s.cfg.N (memBlock (procCall im s).mem c)) =
      filterRun im s.cfg s.C (delays s c) (blockCells s.cfg.N (memBlock s.mem c)) := by
  obtain ⟨hd, hcells, -, -⟩ := chanRun_eq_filterRun im s.cfg s.C (i := 0) (d := delays s c)
    (Memory.wf_iff.1 hm c) (Nat.zero_add _).le
  obtain ⟨hdelays, hblock⟩ := Prod.mk.inj (chan_procCall im s c)
  rw [hdelays, hblock, blockCells_eq, blockCells_eq]
  exact Prod.ext hd hcells

/-- A call keeps the blocks canonical, and every address outside them as it is (R60). -/
theorem procCall_block (im : Impl) {s : State} (hm : Memory.wf s.cfg.N s.mem = true) (c : Channel) :
    Block.wf s.cfg.N (memBlock (procCall im s).mem c) = true ∧
      ∀ a, s.cfg.N ≤ a → memRead (procCall im s).mem c a = memRead s.mem c a := by
  obtain ⟨-, -, hwf, hout⟩ := chanRun_eq_filterRun im s.cfg s.C (i := 0) (d := delays s c)
    (Memory.wf_iff.1 hm c) (Nat.zero_add _).le
  simp only [memRead, (Prod.mk.inj (chan_procCall im s c)).2]
  exact ⟨hwf, fun a ha => hout a (.inr (by omega))⟩

/-- Settles O18: each channel's steps are `Run`, and every other field is the one PROC.BEGIN or PROC.END left. -/
theorem runFiltersBothBlocks : Obligations.RunFiltersBothBlocks := by
  intro s hr hm
  refine ⟨_, exec_procRun_ready hr, procCall_eq_filterRun hardware hm, fun c => (procCall_block hardware hm c).2,
    Memory.wf_iff.2 fun c => (procCall_block hardware hm c).1, ?_⟩
  simp [procCall, emptyMemory, doneProcessed]

/-- Settles O22: a call's steps on a channel read the parameters, the active set and that channel alone. -/
theorem channelsAreIndependent : Obligations.ChannelsAreIndependent := by
  intro c s s' hr hr' hcfg hC hd hm
  have hchan : chan s' c = chan s c := Prod.ext hd hm
  have hend : chan (procCall hardware s') c = chan (procCall hardware s) c := by
    rw [chan_procCall, chan_procCall, hcfg, hC, hchan]
  obtain ⟨hdelays, hblock⟩ := Prod.mk.inj hend
  exact ⟨_, _, exec_procRun_ready hr, exec_procRun_ready hr', hdelays, hblock⟩

/-- `Run` reads the two scales of the parameters, not the block length (R131). -/
theorem filterRun_withLength (im : Impl) (cfg : Config) (n : Nat) (k : CoefficientSet) (d : ChannelState)
    (xs : List Cell) : filterRun im { cfg with N := n } k d xs = filterRun im cfg k d xs := by
  induction xs generalizing d with
  | nil => rfl
  | cons x xs ih => simp only [filterRun, filterStep, ih]

/-- Settles O21: `Run` over the long block is `Run` over its halves, the registers carried over. -/
theorem blockBoundaryContinuity : Obligations.BlockBoundaryContinuity := by
  intro s long second hr hrl hcfg hC hd0 hd1 hm hsecond hml hcells
  let t := procCall hardware s
  let u := procCall hardware { t with mem := second }
  have hcfgt : t.cfg = s.cfg := procCall_cfg hardware s
  have hCt : t.C = s.C := by simp [t, procCall]
  refine ⟨t, u, _, exec_procRun_ready hr, exec_procRun_ready rfl, exec_procRun_ready hrl,
    fun c => Prod.mk.inj ?_⟩
  have hfirst : (delays t c, blockCells s.cfg.N (memBlock t.mem c)) =
      filterRun hardware s.cfg s.C (delays s c) (blockCells s.cfg.N (memBlock s.mem c)) :=
    procCall_eq_filterRun hardware hm c
  have hnext : (delays u c, blockCells s.cfg.N (memBlock u.mem c)) =
      filterRun hardware s.cfg s.C (delays t c) (blockCells s.cfg.N (memBlock second c)) := by
    rw [← delays_withMem t c second, ← hCt, ← hcfgt]
    exact procCall_eq_filterRun hardware (s := { t with mem := second }) (by rw [hcfgt]; exact hsecond) c
  rw [procCall_eq_filterRun hardware hml c, hcells c, hcfg, filterRun_withLength, hC, delays_congr hd0 hd1,
    filterRun_append, ← hfirst, ← hnext]

/-! ### Where a call ends -/

/-- SAMPLE transitions leave the call in flight: only PROC.END ends it (R130). -/
theorem sampleSteps_phase (im : Impl) (k : Nat) {s : State} (hb : s.seq.phase = .busy) :
    (sampleSteps im k s).seq.phase = .busy := by
  induction k generalizing s with
  | zero => exact hb
  | succ k ih => exact ih (nextPosition_phase _ _)

/-- With no event left, the steps of a call in flight are its SAMPLE transitions, each of which leaves one less. -/
theorem runSteps_samples {k : Nat} {s : State} (h : Inv s) (hb : s.seq.phase = .busy) (hin : s.inputs = [])
    (hk : k ≤ samplesLeft s) :
    runSteps k s = .next (sampleSteps hardware k s) ∧ samplesLeft (sampleSteps hardware k s) = samplesLeft s - k := by
  induction k generalizing s with
  | zero => exact ⟨rfl, rfl⟩
  | succ k ih =>
    have hi := index_lt_of_samplesLeft_pos hb h.position (by omega)
    have hleft := samplesLeft_sampleStep hardware hi
    obtain ⟨hrun, hrest⟩ := ih (inv_sampleStep hardware h hb hi) (nextPosition_phase _ _)
      ((sampleStep_inputs hardware s).trans hin) (by omega)
    rw [runSteps_succ_of_next (step_sample hin hb hi), sampleSteps_succ]
    exact ⟨hrun, by omega⟩

theorem samplesLeft_le (s : State) : samplesLeft s ≤ 2 * s.cfg.N := by
  unfold samplesLeft
  split <;> omega

/-- With no SAMPLE left the sequencer stands at `(1, N)` (R30). -/
theorem position_of_samplesLeft_eq_zero {s : State} (h : Inv s) (hb : s.seq.phase = .busy) (h0 : samplesLeft s = 0) :
    s.seq.c = .ch1 ∧ s.seq.i = s.cfg.N := by
  have hn := h.one_le_N
  obtain hi | hend : s.seq.i < s.cfg.N ∨ (s.seq.c = .ch1 ∧ s.seq.i = s.cfg.N) := by
    simpa only [Sequencer.Legal, hb] using h.position
  · unfold samplesLeft at h0
    split at h0 <;> omega
  · exact hend

/-- Settles O34: SAMPLE by SAMPLE down to none left, and there PROC.END. -/
theorem everyCallEnds : Obligations.EveryCallEnds := by
  intro s h hb hin
  refine ⟨samplesLeft_le s, fun k hk => ?_, ?_⟩
  · obtain ⟨hrun, hleft⟩ := runSteps_samples h hb hin hk
    exact ⟨_, hrun, sampleSteps_phase hardware k hb, hleft⟩
  · let u := sampleSteps hardware (samplesLeft s) s
    obtain ⟨hrun, hleft⟩ := runSteps_samples h hb hin le_rfl
    obtain ⟨hc, hi⟩ := position_of_samplesLeft_eq_zero (s := u) (inv_sampleSteps hardware h hb le_rfl)
      (sampleSteps_phase hardware _ hb) (hleft.trans (Nat.sub_self _))
    have hend : step u = .next (procEnd u) :=
      step_end ((sampleSteps_inputs hardware _ s).trans hin) (sampleSteps_phase hardware _ hb) hc hi
    refine ⟨procEnd u, (runSteps_add hrun).trans (runSteps_succ_of_next hend), rfl, ?_⟩
    simp [u, doneProcessed]

/-! ### Samples out of range -/

/-- The registers after a run read the cells from its first index on, each before it is written, so no cell the run
itself wrote; and `QOVF` gives cells alone (R127, R160). -/
theorem chanRun_delays_congr {num : Numerics} {q q' : F → Cell} {cfg : Config} {k : CoefficientSet} {n i : Nat}
    {d : ChannelState} {b b' : Block} (h : ∀ a, i ≤ a → blockRead b a = blockRead b' a) :
    (chanRun ⟨num, q⟩ cfg k n i (d, b)).1 = (chanRun ⟨num, q'⟩ cfg k n i (d, b')).1 := by
  induction n generalizing i d b b' with
  | zero => rfl
  | succ n ih =>
    have hstep : (filterStep ⟨num, q⟩ cfg k d (blockRead b i)).1 =
        (filterStep ⟨num, q'⟩ cfg k d (blockRead b' i)).1 := by
      rw [h i le_rfl, filterStep_delays, filterStep_delays]
    simp only [chanRun, chanStep, hstep]
    refine ih fun a ha => ?_
    rw [blockRead_blockWrite_other _ _ (by omega), blockRead_blockWrite_other _ _ (by omega), h a (by omega)]

/-- Settles O27: the two calls' runs differ in the cells they have written, and those are not read again. -/
theorem overflowNeverReachesTheDelays : Obligations.OverflowNeverReachesTheDelays := by
  intro num q q' s c
  have hchan (im : Impl) : delays (procCall im s) c = (chanRun im s.cfg s.C s.cfg.N 0 (chan s c)).1 :=
    congrArg Prod.fst (chan_procCall im s c)
  rw [hchan, hchan]
  exact chanRun_delays_congr fun _ _ => rfl

/-! ### NaNs in the feedback -/

/-- A NaN in the newest output register makes the next output a NaN (R155). -/
theorem isNaN_recursion {k : CoefficientSet} {x : F} {d : ChannelState} (h : isNaN d.d2 = true) :
    isNaN (recursion hardwareNum k x d) = true :=
  isNaN_fpSub _ (.inl (isNaN_fpSub _ (.inr (isNaN_fpMul _ (.inr h)))))

/-- A step of a channel stores its output unquantised, so a NaN stays in the feedback (R127). -/
theorem chanStep_keeps_nan {cfg : Config} {k : CoefficientSet} {i : Nat} {x : ChannelState × Block}
    (h : isNaN x.1.d2 = true) : isNaN (chanStep hardware cfg k i x).1.d2 = true :=
  isNaN_recursion h

theorem procCall_keeps_nan {c : Channel} {s : State} (h : isNaN (delays s c).d2 = true) :
    isNaN (delays (procCall hardware s) c).d2 = true := by
  have hrun : isNaN (chan (procCall hardware s) c).1.d2 = true := by
    rw [chan_procCall]
    exact chanRun_keeps (Q := fun x => isNaN x.1.d2 = true) (fun _ _ => chanStep_keeps_nan) _ _ h
  exact hrun

theorem sampleStep_keeps_nan {c : Channel} {s : State} (h : isNaN (delays s c).d2 = true) :
    isNaN (delays (sampleStep hardware s) c).d2 = true := by
  by_cases hc : c = s.seq.c
  · rw [sampleStep_delays, ← hc, sampleAt_delays_same]
    exact isNaN_recursion h
  · rwa [sampleStep_delays, sampleAt_delays_other hardware _ s hc]

theorem ownMove_keeps_nan {c : Channel} {s t : State} (h : isNaN (delays s c).d2 = true)
    (ht : ownMove hardware s = .next t) : isNaN (delays t c).d2 = true := by
  obtain ⟨-, rfl⟩ | ⟨-, -, -, rfl⟩ | ⟨-, -, rfl⟩ := ownMove_eq_next ht
  · exact h
  · rwa [delays_procEnd]
  · exact sampleStep_keeps_nan h

theorem exec_keeps_nan {i : Instr} {c : Channel} {s t : State} (hi : i ≠ .reset) (h : isNaN (delays s c).d2 = true)
    (ht : exec i s = .next t) : isNaN (delays t c).d2 = true := by
  cases exec_eq_next ht with
  | setf v _ ht => rwa [ht, setf, delays_setter]
  | setq v _ ht => rwa [ht, setq, delays_setter]
  | run _ _ ht => exact ht ▸ procCall_keeps_nan h
  | skip _ _ ht => rwa [ht, delays_respond]
  | reset hreset _ => exact absurd hreset hi

/-- Settles O26: taking an event and placing blocks writes no register, and every other transition but RESET keeps the
NaN. -/
theorem nanInFeedbackStaysUntilReset : Obligations.NanInFeedbackStaysUntilReset := by
  intro c s t ht hop h
  cases step_eq_next ht with
  | own rest _ ht => exact ownMove_keeps_nan (by rwa [delays_takeInput]) ht
  | whole o rest i _ _ hi _ ht =>
    exact exec_keeps_nan (fun hreset => hop (by rw [hi, hreset])) (by rwa [delays_place, delays_takeInput]) ht
  | begun o rest _ _ _ _ _ ht => rwa [ht, delays_procBegin, delays_place, delays_takeInput]

/-! ### Zeros -/

theorem roundQuotient_zero (neg : Bool) (q : Nat) : roundQuotient neg 0 q = signedZero neg := by
  simp [roundQuotient, binade, roundNat, infLow, signedZero]

theorem eq_signedZero_of_isZero {x : F} (h : isZero x = true) : x = signedZero (signBit x) := by
  simp only [isZero, expField, fracField, Bool.and_eq_true, beq_iff_eq] at h
  refine BitVec.eq_of_toNat_eq ?_
  rw [signedZero, withSign_toNat _ (by omega), signBit_eq]
  simp only [decide_eq_true_eq]
  split <;> omega

section SignedZero
variable (p q : Bool)

@[simp] theorem isZero_signedZero : isZero (signedZero p) = true := by cases p <;> decide

@[simp] theorem fpFinite_signedZero : fpFinite (signedZero p) = true := by cases p <;> decide

@[simp] theorem signBit_signedZero : signBit (signedZero p) = p := by cases p <;> decide

@[simp] theorem magnitude_signedZero : magnitude (signedZero p) = 0 := by cases p <;> decide

@[simp] theorem scaledInt_signedZero : scaledInt (signedZero p) = 0 := by simp [scaledInt]

variable (nan : NanSite → F → F → F)

theorem fpNeg_signedZero : fpNeg nan (signedZero p) = signedZero (!p) := by cases p <;> rfl

theorem fpAdd_signedZero : fpAdd nan (signedZero p) (signedZero q) = signedZero (p && q) := by
  simp [fpAdd_finite]

theorem fpSub_signedZero : fpSub nan (signedZero p) (signedZero q) = signedZero (p && !q) := by
  rw [fpSub, fpNeg_signedZero, fpAdd_signedZero]

theorem fpMul_signedZero_right {a : F} (ha : fpFinite a = true) :
    fpMul nan a (signedZero p) = signedZero (signBit a != p) := by
  simp [fpMul_finite nan ha, roundQuotient_zero]

theorem fpMul_signedZero_left {a : F} (ha : fpFinite a = true) :
    fpMul nan (signedZero p) a = signedZero (p != signBit a) := by
  simp [fpMul_finite nan _ ha, roundQuotient_zero]

end SignedZero

/-- The recursion in binary32's own operations (R126). -/
theorem recursion_hardware (k : CoefficientSet) (x : F) (d : ChannelState) :
    recursion hardwareNum k x d =
      fpSub Config.nanBits (fpSub Config.nanBits (fpAdd Config.nanBits (fpAdd Config.nanBits
        (fpMul Config.nanBits k.b0 x) (fpMul Config.nanBits k.b1 d.d0)) (fpMul Config.nanBits k.b2 d.d1))
        (fpMul Config.nanBits k.a1 d.d2)) (fpMul Config.nanBits k.a2 d.d3) := rfl

/-- The recursion on zeros is a zero, and `+0.0` where its first product is (R126, R156). -/
theorem recursion_of_zeros {k : CoefficientSet} {d : ChannelState} (hk : FiniteSet k) (hd : ZeroState d) :
    ∃ p, recursion hardwareNum k (signedZero false) d = signedZero p ∧ (signBit k.b0 = false → p = false) := by
  obtain ⟨h0, h1, h2, h3⟩ := hd
  obtain ⟨hb0, hb1, hb2, ha1, ha2⟩ := hk
  rw [recursion_hardware, eq_signedZero_of_isZero h0, eq_signedZero_of_isZero h1, eq_signedZero_of_isZero h2,
    eq_signedZero_of_isZero h3]
  simp only [fpMul_signedZero_right, fpAdd_signedZero, fpSub_signedZero, *]
  exact ⟨_, rfl, fun hpos => by simp [hpos]⟩

/-- A positive value has no sign. -/
theorem signBit_of_validQ {v : F} (h : validQ hardwareNum v = true) : signBit v = false := by
  have hpos := (validQ_iff.1 h).2
  refine Bool.eq_false_iff.2 fun hneg => ?_
  rw [realValue_eq_magnitude, if_pos hneg] at hpos
  have hmag : (0 : ℚ) ≤ magnitude v / 2 ^ 150 := by positivity
  linarith

theorem dequantise_eq_fpMul (scale : F) (b : Cell) :
    dequantise hardwareNum scale b = fpMul Config.nanBits (fpOfInt b.toInt) scale := rfl

/-- The cell `0x0000` is the value `+0.0`, for a positive scale (R125, R158). -/
theorem dequantise_zero {scale : F} (h : validQ hardwareNum scale = true) :
    dequantise hardwareNum scale 0#16 = signedZero false := by
  have hint : fpOfInt 0 = signedZero false := by simp [fpOfInt, roundQuotient_zero]
  rw [dequantise_eq_fpMul, BitVec.toInt_zero, hint, fpMul_signedZero_left _ _ (validQ_iff.1 h).1,
    signBit_of_validQ h, Bool.bne_false]

/-- A zero of either sign is the cell `0x0000` (R159). -/
theorem quantise_signedZero (p : Bool) : quantise hardware (signedZero p) = 0#16 := by
  have hfin : hardware.num.isfinite (signedZero p) = true := fpFinite_signedZero p
  have htrunc : hardware.num.ftrunc (signedZero p) = some 0 :=
    show fpTrunc (signedZero p) = some 0 by simp [fpTrunc]
  rw [quantise, if_pos hfin, htrunc]
  rfl

section ZeroInput
variable {cfg : Config} {k : CoefficientSet} (hcfg : configValid hardwareNum cfg = true) (hk : FiniteSet k)
include hcfg hk

/-- One step on a zero cell with zero registers. -/
theorem filterStep_zero {d : ChannelState} (hd : ZeroState d) :
    ∃ p, filterStep hardware cfg k d 0#16 = (⟨signedZero false, d.d0, signedZero p, d.d2⟩, 0#16) ∧
      (signBit k.b0 = false → p = false) := by
  obtain ⟨-, -, hin, hout, -, -⟩ := configValid_iff.1 hcfg
  obtain ⟨p, hrec, hp⟩ := recursion_of_zeros hk hd
  have hx : dequantise hardware.num cfg.inScale 0#16 = signedZero false := dequantise_zero hin
  have hr : recursion hardware.num k (signedZero false) d = signedZero p := hrec
  have hy : hardware.num.fmul (signedZero p) cfg.outScale = signedZero (p != signBit cfg.outScale) :=
    fpMul_signedZero_left p _ (validQ_iff.1 hout).1
  refine ⟨p, Prod.ext ?_ ?_, hp⟩
  · rw [filterStep_delays, hx, hr]
  · rw [filterStep_cell, hx, hr, hy, quantise_signedZero]

/-- A zero block with zero registers is kept, at every index. -/
theorem chanStep_keeps_zero (i : Nat) (x : ChannelState × Block) (h : ZeroState x.1 ∧ x.2 = []) :
    ZeroState (chanStep hardware cfg k i x).1 ∧ (chanStep hardware cfg k i x).2 = [] := by
  obtain ⟨d, b⟩ := x
  obtain ⟨hd, rfl⟩ := h
  obtain ⟨p, hstep, -⟩ := filterStep_zero hcfg hk hd
  obtain ⟨h0, -, h2, -⟩ := hd
  simp only [chanStep, blockRead, hstep]
  exact ⟨⟨isZero_signedZero _, h0, isZero_signedZero _, h2⟩, rfl⟩

/-- So are registers that hold `+0.0` alone, where `b0` has no sign (R135). -/
theorem chanStep_positive_zero (hpos : signBit k.b0 = false) (i : Nat) :
    chanStep hardware cfg k i (zeroDelays hardwareNum, []) = (zeroDelays hardwareNum, []) := by
  obtain ⟨p, hstep, hp⟩ := filterStep_zero hcfg hk (d := zeroDelays hardwareNum)
    ⟨isZero_signedZero false, isZero_signedZero false, isZero_signedZero false, isZero_signedZero false⟩
  rw [hp hpos] at hstep
  simp only [chanStep, blockRead, hstep]
  rfl

end ZeroInput

/-- Settles O25: every step of either channel keeps the zeros, and where `b0` has no sign their signs too. -/
theorem zeroInputGivesZeroOutput : Obligations.ZeroInputGivesZeroOutput := by
  intro s hr hcfg hk hd0 hd1 hm
  have hblock (c : Channel) : memBlock s.mem c = [] := by
    rw [hm]
    cases c <;> rfl
  have hzero (c : Channel) (hd : ZeroState (delays s c)) :
      ZeroState (delays (procCall hardware s) c) ∧ memBlock (procCall hardware s).mem c = [] := by
    have hrun := chanRun_keeps (chanStep_keeps_zero hcfg hk) s.cfg.N 0 (x := chan s c) ⟨hd, hblock c⟩
    rwa [← chan_procCall] at hrun
  have hpositive (hpos : signBit s.C.b0 = false) (c : Channel) (hd : delays s c = zeroDelays hardwareNum) :
      delays (procCall hardware s) c = zeroDelays hardwareNum := by
    have hrun := chanRun_keeps (Q := fun x => x = (zeroDelays hardwareNum, []))
      (fun i x hx => by rw [hx, chanStep_positive_zero hcfg hk hpos i]) s.cfg.N 0 (x := chan s c)
      (Prod.ext hd (hblock c))
    rw [← chan_procCall] at hrun
    exact congrArg Prod.fst hrun
  obtain ⟨ht0, hb0⟩ := hzero .ch0 hd0
  obtain ⟨ht1, hb1⟩ := hzero .ch1 hd1
  exact ⟨_, exec_procRun_ready hr, congrArg₂ Memory.mk hb0 hb1, ht0, ht1, fun hpos hz0 hz1 =>
    ⟨(hpositive hpos .ch0 hz0).trans hz0.symm, (hpositive hpos .ch1 hz1).trans hz1.symm⟩⟩

/-! ### Dequantisation by a power of two -/

/-- Rounding keeps the sign it is given. -/
theorem signBit_roundQuotient (neg : Bool) (p q : Nat) : signBit (roundQuotient neg p q) = neg := by
  have hinf : infLow < 2 ^ 31 := by decide
  simp only [roundQuotient]
  split
  · exact signBit_withSign neg hinf
  · split
    · exact signBit_withSign neg hinf
    · next h => exact signBit_withSign neg (by omega)

section ShortSignificand
variable {p q m e : Nat} (hm : m < 2 ^ 24) (he : 24 ≤ e) (he' : e ≤ 254)
  (h : p * 2 ^ 150 = m * (q * 2 ^ e))
include hm he he' h

/-- A quotient `m * 2^(e-150)` whose `m` has at most 24 bits is a zero, or `m` shifted up to a full significand with the
exponent lowered by as much. -/
theorem eq_zero_or_exists_significand :
    p = 0 ∨ ∃ sig e', 2 ^ 23 ≤ sig ∧ sig < 2 ^ 24 ∧ 1 ≤ e' ∧ e' ≤ 254 ∧ p * 2 ^ 150 = sig * (q * 2 ^ e') := by
  obtain rfl | hm0 := Nat.eq_zero_or_pos m
  · exact .inl (by simpa using h)
  · have hlow : 2 ^ m.log2 ≤ m := Nat.log2_self_le hm0.ne'
    have hlog : m.log2 < 24 := (Nat.log2_lt hm0.ne').2 hm
    obtain ⟨j, hj⟩ : ∃ j, m.log2 + j = 23 := ⟨23 - m.log2, by omega⟩
    have hhigh : m < 2 ^ (m.log2 + 1) := Nat.lt_log2_self
    refine .inr ⟨m * 2 ^ j, e - j, ?_, ?_, by omega, by omega, ?_⟩
    · calc 2 ^ 23 = 2 ^ m.log2 * 2 ^ j := by rw [← pow_add, hj]
        _ ≤ m * 2 ^ j := Nat.mul_le_mul_right _ hlow
    · calc m * 2 ^ j < 2 ^ (m.log2 + 1) * 2 ^ j := Nat.mul_lt_mul_of_pos_right hhigh (by positivity)
        _ = 2 ^ 24 := by rw [← pow_add, show m.log2 + 1 + j = 24 by omega]
    · calc p * 2 ^ 150 = m * (q * 2 ^ (j + (e - j))) := by rw [h, Nat.add_sub_cancel' (by omega)]
        _ = m * 2 ^ j * (q * 2 ^ (e - j)) := by rw [pow_add]; ring

variable (hq : 0 < q)
include hq

theorem fpFinite_roundQuotient_of_short (neg : Bool) : fpFinite (roundQuotient neg p q) = true := by
  obtain rfl | ⟨sig, e', hsig, hsig', h1, h254, hexact⟩ := eq_zero_or_exists_significand hm he he' h
  · rw [roundQuotient_zero, fpFinite_signedZero]
  · have hexp : expField (withSign neg ((e' - 1) * 2 ^ 23 + sig)) = e' := by
      rw [expField_withSign neg (by omega)]
      omega
    rw [roundQuotient_of_exact hq hsig hsig' h1 hexact neg h254, fpFinite, hexp]
    exact bne_iff_ne.2 (by omega)

/-- Such a quotient is not rounded (R152). -/
theorem realValue_roundQuotient_of_short (neg : Bool) :
    realValue (roundQuotient neg p q) = (if neg then -1 else 1) * (p / q) := by
  obtain rfl | ⟨sig, e', hsig, hsig', h1, h254, hexact⟩ := eq_zero_or_exists_significand hm he he' h
  · rw [roundQuotient_zero, realValue_eq_magnitude, magnitude_signedZero]
    simp
  · exact realValue_roundQuotient_of_exact hq hsig hsig' h1 hexact neg h254

end ShortSignificand

/-- An integer of at most 24 bits is converted exactly (R158). -/
theorem fpOfInt_of_short {n : Int} (h : n.natAbs < 2 ^ 24) :
    fpFinite (fpOfInt n) = true ∧ magnitude (fpOfInt n) = n.natAbs * 2 ^ 150 := by
  have hexact : n.natAbs * 2 ^ 150 = n.natAbs * (1 * 2 ^ 150) := by rw [one_mul]
  refine ⟨fpFinite_roundQuotient_of_short h (by decide) (by decide) hexact one_pos _, ?_⟩
  have hreal := realValue_roundQuotient_of_short h (by decide) (by decide) hexact one_pos (decide (n < 0))
  rw [realValue_eq_magnitude, signBit_roundQuotient, Nat.cast_one, div_one] at hreal
  have hunits : (magnitude (fpOfInt n) / 2 ^ 150 : ℚ) = n.natAbs :=
    mul_left_cancel₀ (by split <;> norm_num) hreal
  rw [div_eq_iff (by positivity)] at hunits
  exact_mod_cast hunits

theorem sign_mul_natAbs (n : Int) : (if decide (n < 0) then -1 else 1 : ℚ) * n.natAbs = n := by
  rw [Nat.cast_natAbs]
  by_cases h : n < 0
  · simp [h, abs_of_neg h]
  · simp [h, abs_of_nonneg (not_lt.1 h)]

/-- Settles O47: a sample's 16 bits fit the significand, and the scale moves the exponent alone. -/
theorem dequantisationByAPowerOfTwoIsExact : Obligations.DequantisationByAPowerOfTwoIsExact := by
  intro b
  have hshort : b.toInt.natAbs < 2 ^ 24 := by
    have hlow := BitVec.le_toInt b
    have hhigh := BitVec.toInt_lt (x := b)
    omega
  obtain ⟨hfin, hmag⟩ := fpOfInt_of_short hshort
  have hsign : signBit (fpOfInt b.toInt) = decide (b.toInt < 0) := signBit_roundQuotient _ _ _
  have hscale : magnitude 0x38000000#32 = 2 ^ 135 := by decide
  have hpos : signBit 0x38000000#32 = false := by decide
  have hexact : b.toInt.natAbs * 2 ^ 150 * 2 ^ 135 * 2 ^ 150 = b.toInt.natAbs * (2 ^ 150 * 2 ^ 150 * 2 ^ 135) := by
    ring
  rw [dequantise_eq_fpMul, fpMul_finite _ hfin (by decide), hmag, hscale, hsign, hpos, Bool.bne_false,
    realValue_roundQuotient_of_short hshort (by decide) (by decide) hexact (by positivity)]
  calc (if decide (b.toInt < 0) then -1 else 1 : ℚ) *
        ((b.toInt.natAbs * 2 ^ 150 * 2 ^ 135 : ℕ) / (2 ^ 150 * 2 ^ 150 : ℕ))
      = (if decide (b.toInt < 0) then -1 else 1 : ℚ) * b.toInt.natAbs / 32768 := by push_cast; ring
    _ = b.toInt / 32768 := by rw [sign_mul_natAbs]

end Sys2Proof.Machine
end

section
/-! PROOFS. The numerics (spec/42): the operations round the exact real results, the special operands and the zeros
follow the non-trapping defaults, the comparisons order the extended reals, and the conversions are exact. -/

namespace Sys2Proof.Machine

/-! ### Rounding to a whole number -/

/-- A quotient is its whole part and a fraction. -/
theorem cast_div_eq_add_mod (a : Nat) {b : Nat} (hb : 0 < b) : (a / b : ℚ) = (a / b : ℕ) + (a % b : ℕ) / b := by
  have hb' : (b : ℚ) ≠ 0 := by positivity
  rw [add_div' _ _ _ hb']
  exact_mod_cast congrArg (fun k : ℕ => (k / b : ℚ)) (Nat.div_add_mod' a b).symm

/-- `roundNat` is within a half of the quotient, and even where it is a half away. -/
theorem abs_sub_roundNat (a : Nat) {b : Nat} (hb : 0 < b) :
    |(a / b : ℚ) - roundNat a b| < 1 / 2 ∨ |(a / b : ℚ) - roundNat a b| = 1 / 2 ∧ roundNat a b % 2 = 0 := by
  have hb' : (0 : ℚ) < b := by exact_mod_cast hb
  have hlt : a % b < b := Nat.mod_lt a hb
  rw [cast_div_eq_add_mod a hb]
  simp only [roundNat]
  generalize a / b = n at *
  generalize a % b = r at *
  have hf : (r / b : ℚ) < 1 := (div_lt_one hb').2 (by exact_mod_cast hlt)
  have hf0 : (0 : ℚ) ≤ r / b := by positivity
  have hlow : 2 * r < b → (r / b : ℚ) < 1 / 2 := fun h => by
    rw [div_lt_div_iff₀ hb' two_pos]
    exact_mod_cast (by omega : r * 2 < 1 * b)
  have htie : 2 * r = b → (r / b : ℚ) = 1 / 2 := fun h => by
    rw [div_eq_div_iff hb'.ne' two_ne_zero]
    exact_mod_cast (by omega : r * 2 = 1 * b)
  have hhigh : b < 2 * r → 1 / 2 < (r / b : ℚ) := fun h => by
    rw [div_lt_div_iff₀ two_pos hb']
    exact_mod_cast (by omega : 1 * b < r * 2)
  split
  next hup =>
    have hdist : |(n + r / b : ℚ) - (n + 1 : ℕ)| = 1 - r / b := by
      rw [Nat.cast_add_one, add_sub_add_left_eq_sub, abs_sub_comm, abs_of_pos (by linarith)]
    rw [hdist]
    obtain h | ⟨h, hodd⟩ := hup
    · exact .inl (by linarith [hhigh h])
    · exact .inr ⟨by linarith [htie h], by omega⟩
  next hdown =>
    rw [add_sub_cancel_left, abs_of_nonneg hf0]
    obtain h | h : 2 * r < b ∨ 2 * r = b := by omega
    · exact .inl (hlow h)
    · exact .inr ⟨htie h, by omega⟩

section RoundNat
variable {a b : Nat} (hb : 0 < b)
include hb

theorem abs_sub_roundNat_le : |(a / b : ℚ) - roundNat a b| ≤ 1 / 2 := by
  obtain h | ⟨h, -⟩ := abs_sub_roundNat a hb
  · exact h.le
  · exact h.le

theorem roundNat_le {n : Nat} (h : (a / b : ℚ) ≤ n) : roundNat a b ≤ n := by
  by_contra hlt
  have hcast : (n + 1 : ℚ) ≤ roundNat a b := by exact_mod_cast not_le.1 hlt
  linarith [(abs_le.1 (abs_sub_roundNat_le (a := a) hb)).1]

/-- Every other whole number is farther from the quotient than `roundNat`, or as far and `roundNat` is even. -/
theorem roundNat_nearest {k : ℤ} (hk : k ≠ roundNat a b) :
    |(a / b : ℚ) - roundNat a b| < |(a / b : ℚ) - k| ∨
      |(a / b : ℚ) - roundNat a b| = |(a / b : ℚ) - k| ∧ roundNat a b % 2 = 0 := by
  have hone : (1 : ℚ) ≤ |(roundNat a b : ℚ) - k| := by
    exact_mod_cast Int.one_le_abs (sub_ne_zero.2 hk.symm)
  have htri := abs_sub_le (roundNat a b : ℚ) (a / b) k
  rw [abs_sub_comm (roundNat a b : ℚ) (a / b)] at htri
  obtain h | ⟨h, heven⟩ := abs_sub_roundNat a hb
  · exact .inl (by linarith)
  · obtain hlt | heq : 1 / 2 < |(a / b : ℚ) - k| ∨ 1 / 2 = |(a / b : ℚ) - k| := lt_or_eq_of_le (by linarith)
    · exact .inl (h.trans_lt hlt)
    · exact .inr ⟨h.trans heq, heven⟩

/-- So is every number below a whole number that the quotient reaches. -/
theorem roundNat_nearer {k : ℤ} (hk : (k : ℚ) ≤ a / b) {t : ℚ} (ht : t < k) :
    |(a / b : ℚ) - roundNat a b| < |(a / b : ℚ) - t| := by
  have hle : |(a / b : ℚ) - roundNat a b| ≤ |(a / b : ℚ) - k| := by
    by_cases h : k = roundNat a b
    · rw [h, Int.cast_natCast]
    · obtain hlt | ⟨heq, -⟩ := roundNat_nearest hb h
      · exact hlt.le
      · exact heq.le
  rw [abs_of_nonneg (sub_nonneg.2 hk)] at hle
  have hself := le_abs_self ((a / b : ℚ) - t)
  linarith

/-- The quotients that round to an even number or above are those from a half below it on. -/
theorem even_le_roundNat_iff {n : Nat} (hn : n % 2 = 0) : n ≤ roundNat a b ↔ (n - 1 / 2 : ℚ) ≤ a / b := by
  obtain ⟨hlow, hhigh⟩ := abs_le.1 (abs_sub_roundNat_le (a := a) hb)
  constructor
  · intro h
    have hcast : (n : ℚ) ≤ roundNat a b := by exact_mod_cast h
    linarith
  · intro h
    by_contra hlt
    have hcast : (roundNat a b + 1 : ℚ) ≤ n := by exact_mod_cast not_le.1 hlt
    have hnext : roundNat a b + 1 = n := by
      exact_mod_cast (by linarith : (roundNat a b + 1 : ℚ) = n)
    obtain hnear | ⟨-, heven⟩ := abs_sub_roundNat a hb
    · linarith [le_abs_self ((a / b : ℚ) - roundNat a b)]
    · omega

end RoundNat

/-! ### The binade of a quotient -/

section Binade
variable {p q : Nat} (hq : 0 < q)
include hq

/-- A quotient in units of its binade's spacing has at most 24 bits before the point. -/
theorem quotient_lt_of_binade : p * 2 ^ 150 < 2 ^ 24 * (q * 2 ^ binade p q) := by
  have hlt : p * 2 ^ 126 < 2 ^ binade p q * q := (Nat.div_lt_iff_lt_mul hq).1 Nat.lt_log2_self
  calc p * 2 ^ 150 = 2 ^ 24 * (p * 2 ^ 126) := by ring
    _ < 2 ^ 24 * (2 ^ binade p q * q) := Nat.mul_lt_mul_of_pos_left hlt (by positivity)
    _ = 2 ^ 24 * (q * 2 ^ binade p q) := by ring

/-- Above the least binade it has all of them. -/
theorem le_quotient_of_binade (h : binade p q ≠ 1) : 2 ^ 23 * (q * 2 ^ binade p q) ≤ p * 2 ^ 150 := by
  have hne : p * 2 ^ 126 / q ≠ 0 := fun h0 => h (by rw [binade, h0, Nat.log2_zero])
  have hle : 2 ^ (p * 2 ^ 126 / q).log2 * q ≤ p * 2 ^ 126 := (Nat.le_div_iff_mul_le hq).1 (Nat.log2_self_le hne)
  calc 2 ^ 23 * (q * 2 ^ binade p q) = 2 ^ 24 * (2 ^ (p * 2 ^ 126 / q).log2 * q) := by rw [binade]; ring
    _ ≤ 2 ^ 24 * (p * 2 ^ 126) := Nat.mul_le_mul_left _ hle
    _ = p * 2 ^ 150 := by ring

end Binade

/-! ### Rounding a quotient -/

/-- The distance of two neighbouring values in the binade of `p / q` (R151). -/
def spacing (p q : Nat) : ℚ := 2 ^ binade p q / 2 ^ 150

/-- `p / q` in units of that spacing. -/
def unitQuotient (p q : Nat) : ℚ := (p * 2 ^ 150 : ℕ) / (q * 2 ^ binade p q : ℕ)

/-- The whole number of those units that `roundQuotient` takes. -/
def roundedUnits (p q : Nat) : Nat := roundNat (p * 2 ^ 150) (q * 2 ^ binade p q)

/-- The lower 31 bits it puts them in, with the exponent. -/
def roundedLow (p q : Nat) : Nat := (binade p q - 1) * 2 ^ 23 + roundedUnits p q

theorem roundQuotient_eq_roundedLow (neg : Bool) (p q : Nat) :
    roundQuotient neg p q =
      if 255 ≤ binade p q ∨ infLow ≤ roundedLow p q then infinity neg else withSign neg (roundedLow p q) := by
  rw [ite_or]
  rfl

theorem spacing_pos (p q : Nat) : 0 < spacing p q := by
  rw [spacing]
  positivity

theorem one_le_binade (p q : Nat) : 1 ≤ binade p q := Nat.le_add_left _ _

section RoundQuotient
variable {p q : Nat} (hq : 0 < q)
include hq

theorem unit_pos : 0 < q * 2 ^ binade p q := by positivity

theorem div_eq_unitQuotient_mul : (p / q : ℚ) = unitQuotient p q * spacing p q := by
  have hq' : (q : ℚ) ≠ 0 := by positivity
  rw [unitQuotient, spacing]
  push_cast
  field_simp
  norm_num

theorem unitQuotient_lt : unitQuotient p q < 2 ^ 24 := by
  rw [unitQuotient, div_lt_iff₀ (by exact_mod_cast unit_pos hq)]
  exact_mod_cast quotient_lt_of_binade hq

theorem le_unitQuotient (h : binade p q ≠ 1) : 2 ^ 23 ≤ unitQuotient p q := by
  rw [unitQuotient, le_div_iff₀ (by exact_mod_cast unit_pos hq)]
  exact_mod_cast le_quotient_of_binade hq h

theorem even_le_roundedUnits_iff {n : Nat} (hn : n % 2 = 0) :
    n ≤ roundedUnits p q ↔ (n - 1 / 2 : ℚ) ≤ unitQuotient p q :=
  even_le_roundNat_iff (unit_pos hq) hn

theorem roundedUnits_le : roundedUnits p q ≤ 2 ^ 24 :=
  roundNat_le (unit_pos hq) (by exact_mod_cast (unitQuotient_lt hq).le)

theorem le_roundedUnits (h : binade p q ≠ 1) : 2 ^ 23 ≤ roundedUnits p q := by
  have hle := le_unitQuotient hq h
  rw [even_le_roundedUnits_iff hq (by decide)]
  push_cast
  linarith

/-- Rounding overflows from `2^128 - 2^103` on (R152). -/
theorem overflow_iff :
    255 ≤ binade p q ∨ infLow ≤ roundedLow p q ↔ (2 ^ 128 - 2 ^ 103 : ℚ) ≤ p / q := by
  have hunits := roundedUnits_le (p := p) hq
  have hlt := unitQuotient_lt (p := p) hq
  have hcarry := even_le_roundedUnits_iff (p := p) hq (n := 2 ^ 24) (by decide)
  push_cast at hcarry
  have htop (h : binade p q = 254) : spacing p q = 2 ^ 104 := by
    rw [spacing, h]
    norm_num
  rw [div_eq_unitQuotient_mul hq, roundedLow, infLow]
  constructor
  · intro h
    by_cases he : 255 ≤ binade p q
    · have hspacing : 2 ^ 105 ≤ spacing p q := by
        rw [spacing, le_div_iff₀ (by positivity), ← pow_add]
        exact pow_le_pow_right₀ one_le_two he
      have hfull := le_unitQuotient hq (p := p) (by omega)
      calc (2 ^ 128 - 2 ^ 103 : ℚ) ≤ 2 ^ 23 * 2 ^ 105 := by norm_num
        _ ≤ unitQuotient p q * spacing p q := by gcongr
    · rw [htop (by omega)]
      linarith [hcarry.1 (by omega)]
  · intro h
    by_contra hno
    obtain hbelow | he : binade p q ≤ 253 ∨ binade p q = 254 := by omega
    · have hspacing : spacing p q ≤ 2 ^ 103 := by
        rw [spacing, div_le_iff₀ (by positivity), ← pow_add]
        exact pow_le_pow_right₀ one_le_two hbelow
      have hsmall := mul_lt_mul hlt hspacing (spacing_pos p q) (by positivity)
      linarith
    · rw [htop he] at h
      linarith [mt hcarry.2 (by omega)]

end RoundQuotient

/-! ### The value that a quotient is rounded to -/

/-- The factor that a sign bit stands for (R151). -/
def signFactor (neg : Bool) : ℚ := if neg then -1 else 1

/-- A subnormal number's value (R151). -/
theorem realValue_withSign_subnormal (neg : Bool) {n : Nat} (hn : n < 2 ^ 23) :
    realValue (withSign neg n) = signFactor neg * (n * 2 ^ 1 / 2 ^ 150) := by
  have hlow : n < 2 ^ 31 := by omega
  have hexp : expField (withSign neg n) = 0 := by rw [expField_withSign neg hlow, Nat.div_eq_of_lt hn]
  have hfrac : fracField (withSign neg n) = n := by rw [fracField_withSign neg hlow, Nat.mod_eq_of_lt hn]
  rw [realValue_eq_magnitude, signBit_withSign neg hlow, magnitude, significand, if_pos hexp, hfrac, hexp]
  push_cast
  rfl

theorem fpFinite_withSign (neg : Bool) {low : Nat} (h : low < infLow) : fpFinite (withSign neg low) = true := by
  simp only [infLow] at h
  rw [fpFinite, expField_withSign neg (by omega), bne_iff_ne]
  omega

theorem getLsbD_zero_withSign (neg : Bool) {low : Nat} (h : low < 2 ^ 31) :
    (withSign neg low).getLsbD 0 = decide (low % 2 = 1) := by
  have hparity : ((if neg then 2 ^ 31 else 0) + low) % 2 = low % 2 := by split <;> omega
  rw [BitVec.getLsbD, withSign_toNat neg h, Nat.testBit_zero, hparity]

section RoundQuotient
variable {p q : Nat} (hq : 0 < q) (hfits : roundedLow p q < infLow) (neg : Bool)
include hq hfits

/-- The rounded pattern is the rounded number of units, also where it is subnormal or carries into the exponent. -/
theorem realValue_roundedLow :
    realValue (withSign neg (roundedLow p q)) = signFactor neg * (roundedUnits p q * spacing p q) := by
  have he := one_le_binade p q
  have hle := roundedUnits_le (p := p) hq
  have hge := le_roundedUnits (p := p) hq
  simp only [roundedLow, infLow] at hfits
  rw [roundedLow, spacing, ← mul_div_assoc]
  generalize binade p q = e at *
  generalize roundedUnits p q = n at *
  obtain hsub | hnormal | rfl : n < 2 ^ 23 ∨ (2 ^ 23 ≤ n ∧ n < 2 ^ 24) ∨ n = 2 ^ 24 := by omega
  · obtain rfl : e = 1 := by omega
    rw [Nat.sub_self, zero_mul, zero_add, realValue_withSign_subnormal neg hsub]
  · exact realValue_withSign_normal neg hnormal.1 hnormal.2 he (by omega)
  · have hcarry : (e - 1) * 2 ^ 23 + 2 ^ 24 = (e + 1 - 1) * 2 ^ 23 + 2 ^ 23 := by omega
    rw [hcarry, realValue_withSign_normal neg le_rfl (by decide) (by omega) (by omega), signFactor]
    push_cast
    ring

end RoundQuotient

/-! ### Correct rounding -/

@[simp] theorem abs_signFactor (neg : Bool) : |signFactor neg| = 1 := by
  cases neg
  · exact abs_one
  · exact (abs_neg 1).trans abs_one

theorem signFactor_mul_signFactor (m n : Bool) : signFactor m * signFactor n = signFactor (m != n) := by
  cases m <;> cases n <;> norm_num [signFactor]

theorem inv_signFactor (neg : Bool) : (signFactor neg)⁻¹ = signFactor neg := by
  cases neg <;> norm_num [signFactor]

@[simp] theorem signFactor_mul_self_mul (neg : Bool) (x : ℚ) : signFactor neg * (signFactor neg * x) = x := by
  rw [← mul_assoc, signFactor_mul_signFactor, bne_self_eq_false]
  exact one_mul x

theorem abs_signFactor_mul_sub (neg : Bool) (x y : ℚ) : |signFactor neg * x - y| = |x - signFactor neg * y| := by
  have hfactor : signFactor neg * x - y = signFactor neg * (x - signFactor neg * y) := by
    rw [mul_sub, signFactor_mul_self_mul]
  rw [hfactor, abs_mul, abs_signFactor, one_mul]

theorem realValue_eq_signFactor_mul (x : F) : realValue x = signFactor (signBit x) * (magnitude x / 2 ^ 150) :=
  realValue_eq_magnitude x

/-- Up to either sign, every value is a whole number of units of the binade of `p / q`, or lies below that binade. -/
theorem exists_units_or_below (p q : Nat) (neg : Bool) (z : F) :
    ∃ t : ℚ, signFactor neg * realValue z = t * spacing p q ∧
      ((∃ k : ℤ, t = k) ∨ binade p q ≠ 1 ∧ t < 2 ^ 23) := by
  have he := one_le_binade p q
  rw [realValue_eq_signFactor_mul, spacing, ← mul_assoc, signFactor_mul_signFactor]
  generalize (neg != signBit z) = sign
  generalize binade p q = e at *
  refine ⟨signFactor sign * (magnitude z / 2 ^ e), by field_simp, ?_⟩
  obtain ⟨j, hj⟩ | hlt := (le_or_gt e (max (expField z) 1)).imp_left Nat.exists_eq_add_of_le
  · refine .inl ⟨(if sign then -1 else 1) * (significand z * 2 ^ j : ℕ), ?_⟩
    rw [magnitude, hj, pow_add, signFactor]
    push_cast
    field_simp
  · have hmag : magnitude z < 2 ^ 23 * 2 ^ e :=
      (magnitude_lt_next_binade z).trans_le (Nat.mul_le_mul_left _ (Nat.pow_le_pow_right two_pos (by omega)))
    have hbelow : (magnitude z / 2 ^ e : ℚ) < 2 ^ 23 := by
      rw [div_lt_iff₀ (by positivity)]
      exact_mod_cast hmag
    refine .inr ⟨by omega, lt_of_le_of_lt ?_ hbelow⟩
    calc signFactor sign * (magnitude z / 2 ^ e : ℚ)
        ≤ |signFactor sign * (magnitude z / 2 ^ e : ℚ)| := le_abs_self _
      _ = magnitude z / 2 ^ e := by rw [abs_mul, abs_signFactor, one_mul, abs_of_nonneg (by positivity)]

/-- The whole number of units is nearer than any other value, or as near and even. -/
theorem roundedUnits_nearest {p q : Nat} (hq : 0 < q) {t : ℚ} (ht : t ≠ roundedUnits p q)
    (hgrid : (∃ k : ℤ, t = k) ∨ binade p q ≠ 1 ∧ t < 2 ^ 23) :
    |unitQuotient p q - roundedUnits p q| < |unitQuotient p q - t| ∨
      |unitQuotient p q - roundedUnits p q| = |unitQuotient p q - t| ∧ roundedUnits p q % 2 = 0 := by
  obtain ⟨k, rfl⟩ | ⟨he, hlt⟩ := hgrid
  · exact roundNat_nearest (unit_pos hq) (by exact_mod_cast ht)
  · have hreach : ((2 ^ 23 : ℤ) : ℚ) ≤ unitQuotient p q := by exact_mod_cast le_unitQuotient hq he
    exact .inl (roundNat_nearer (unit_pos hq) hreach (by exact_mod_cast hlt))

/-- A quotient that fits is rounded to the nearest value, to the pattern with an even fraction where two are nearest. -/
theorem roundedLow_nearest {p q : Nat} (hq : 0 < q) (hfits : roundedLow p q < infLow) (neg : Bool) {r z : F}
    (hr : r = withSign neg (roundedLow p q)) (hz : realValue z ≠ realValue r) :
    |signFactor neg * (p / q) - realValue r| < |signFactor neg * (p / q) - realValue z| ∨
      |signFactor neg * (p / q) - realValue r| = |signFactor neg * (p / q) - realValue z| ∧ r.getLsbD 0 = false := by
  subst hr
  have hpos := spacing_pos p q
  obtain ⟨t, ht, hgrid⟩ := exists_units_or_below p q neg z
  have hne : t ≠ roundedUnits p q := by
    rintro rfl
    exact hz (by rw [realValue_roundedLow hq hfits, ← ht, signFactor_mul_self_mul])
  have hdist (n : ℚ) : |unitQuotient p q * spacing p q - n * spacing p q| = |unitQuotient p q - n| * spacing p q := by
    rw [← sub_mul, abs_mul, abs_of_pos hpos]
  rw [realValue_roundedLow hq hfits, abs_signFactor_mul_sub, abs_signFactor_mul_sub, signFactor_mul_self_mul, ht,
    div_eq_unitQuotient_mul hq, hdist, hdist, getLsbD_zero_withSign neg (hfits.trans (by decide))]
  obtain hnear | ⟨htie, heven⟩ := roundedUnits_nearest hq hne hgrid
  · exact .inl (mul_lt_mul_of_pos_right hnear hpos)
  · refine .inr ⟨by rw [htie], ?_⟩
    rw [roundedLow, decide_eq_false_iff_not]
    omega

/-- `roundQuotient` is correct rounding of a signed quotient (R152). -/
theorem roundsTo_roundQuotient (neg : Bool) (p : Nat) {q : Nat} (hq : 0 < q) :
    RoundsTo (signFactor neg * (p / q)) (roundQuotient neg p q) := by
  have habs : |signFactor neg * (p / q)| = p / q := by
    rw [abs_mul, abs_signFactor, one_mul, abs_of_nonneg (by positivity)]
  rw [RoundsTo, habs, roundQuotient_eq_roundedLow]
  split
  next hsmall =>
    have hno : ¬(255 ≤ binade p q ∨ infLow ≤ roundedLow p q) := fun h => ((overflow_iff hq).1 h).not_gt hsmall
    have hfits : roundedLow p q < infLow := not_le.1 (not_or.1 hno).2
    rw [if_neg hno]
    exact ⟨fpFinite_withSign neg hfits, fun _ _ => roundedLow_nearest hq hfits neg rfl⟩
  next hlarge =>
    have hpos : (0 : ℚ) < p / q := lt_of_lt_of_le (by norm_num) (not_lt.1 hlarge)
    rw [if_pos ((overflow_iff hq).2 (not_lt.1 hlarge))]
    congr 1
    cases neg
    · simpa [signFactor] using hpos.le
    · simpa [signFactor] using hpos

/-! ### Sums, differences, products and quotients -/

theorem magnitude_eq_zero_iff {x : F} : magnitude x = 0 ↔ isZero x = true := by
  rw [magnitude, Nat.mul_eq_zero, or_iff_left (by positivity), significand, isZero, Bool.and_eq_true, beq_iff_eq,
    beq_iff_eq]
  split
  next h => simp [h]
  next h =>
    constructor
    · omega
    · exact fun h' => absurd h'.1 h

theorem realValue_eq_zero_iff {x : F} : realValue x = 0 ↔ isZero x = true := by
  rw [realValue_eq_scaledInt, div_eq_zero_iff, or_iff_left (by positivity), Int.cast_eq_zero, ← magnitude_eq_zero_iff,
    scaledInt]
  split <;> omega

/-- Flipping the sign bit keeps the lower 31 bits. -/
theorem low_flipSign (x : F) : (x ^^^ 0x80000000#32).toNat % 2 ^ 31 = x.toNat % 2 ^ 31 := by
  rw [BitVec.toNat_xor, Nat.xor_mod_two_pow]
  exact Nat.xor_zero _

theorem signBit_flipSign (x : F) : signBit (x ^^^ 0x80000000#32) = !signBit x := by
  rw [signBit, BitVec.getLsbD_xor]
  exact Bool.xor_true _

theorem expField_eq_of_low_eq {x y : F} (h : x.toNat % 2 ^ 31 = y.toNat % 2 ^ 31) : expField x = expField y := by
  simp only [expField]
  omega

theorem fpNeg_finite (nan : NanSite → F → F → F) {x : F} (h : fpFinite x = true) :
    fpNeg nan x = x ^^^ 0x80000000#32 := by
  simp [fpNeg, not_isNaN_of_fpFinite h]

theorem fpFinite_fpNeg (nan : NanSite → F → F → F) {x : F} (h : fpFinite x = true) :
    fpFinite (fpNeg nan x) = true := by
  rwa [fpNeg_finite nan h, fpFinite, expField_eq_of_low_eq (low_flipSign x)]

theorem realValue_fpNeg (nan : NanSite → F → F → F) {x : F} (h : fpFinite x = true) :
    realValue (fpNeg nan x) = -realValue x := by
  rw [fpNeg_finite nan h, realValue_eq_signFactor_mul, realValue_eq_signFactor_mul, signBit_flipSign,
    magnitude_eq_of_low_eq (low_flipSign x), ← neg_mul]
  cases signBit x <;> norm_num [signFactor]

section Finite
variable (nan : NanSite → F → F → F) {a b : F} (ha : fpFinite a = true) (hb : fpFinite b = true)

include ha hb

theorem roundsTo_fpAdd : RoundsTo (realValue a + realValue b) (fpAdd nan a b) := by
  have hsum : realValue a + realValue b = (scaledInt a + scaledInt b : ℤ) / (2 ^ 150 : ℕ) := by
    rw [realValue_eq_scaledInt, realValue_eq_scaledInt, ← add_div]
    push_cast
    rfl
  rw [hsum, fpAdd_finite nan ha hb]
  generalize scaledInt a + scaledInt b = sum
  split
  next h =>
    have hround := roundsTo_roundQuotient (signBit a && signBit b) 0 (q := 2 ^ 150) (by positivity)
    rwa [roundQuotient_zero, Nat.cast_zero, zero_div, mul_zero, ← zero_div, ← Int.cast_zero, ← h] at hround
  next h =>
    rw [← sign_mul_natAbs, mul_div_assoc]
    exact roundsTo_roundQuotient _ _ (by positivity)

theorem roundsTo_fpSub : RoundsTo (realValue a - realValue b) (fpSub nan a b) := by
  rw [sub_eq_add_neg, ← realValue_fpNeg nan hb]
  exact roundsTo_fpAdd nan ha (fpFinite_fpNeg nan hb)

theorem roundsTo_fpMul : RoundsTo (realValue a * realValue b) (fpMul nan a b) := by
  have hprod : realValue a * realValue b =
      signFactor (signBit a != signBit b) * ((magnitude a * magnitude b : ℕ) / (2 ^ 150 * 2 ^ 150 : ℕ)) := by
    rw [realValue_eq_signFactor_mul, realValue_eq_signFactor_mul, ← signFactor_mul_signFactor]
    push_cast
    ring
  rw [hprod, fpMul_finite nan ha hb]
  exact roundsTo_roundQuotient _ _ (by positivity)

theorem roundsTo_fpDiv (hz : realValue b ≠ 0) : RoundsTo (realValue a / realValue b) (fpDiv nan a b) := by
  have hz' : isZero b = false := by rwa [Ne, realValue_eq_zero_iff, Bool.not_eq_true] at hz
  have hmag : magnitude b ≠ 0 := by rwa [Ne, magnitude_eq_zero_iff, Bool.not_eq_true]
  have hquot : realValue a / realValue b = signFactor (signBit a != signBit b) * (magnitude a / magnitude b) := by
    rw [realValue_eq_signFactor_mul, realValue_eq_signFactor_mul, ← signFactor_mul_signFactor]
    field_simp
    rw [div_eq_mul_inv, inv_signFactor]
  rw [hquot, fpDiv_finite nan ha hb hz']
  exact roundsTo_roundQuotient _ _ (Nat.pos_of_ne_zero hmag)

end Finite

/-- Settles O42: each operation computes the exact result and rounds it once. -/
theorem arithmeticRoundsToNearestEven : Obligations.ArithmeticRoundsToNearestEven := fun _ _ ha hb =>
  ⟨roundsTo_fpAdd _ ha hb, roundsTo_fpSub _ ha hb, roundsTo_fpMul _ ha hb, roundsTo_fpDiv _ ha hb⟩

/-! ### NaNs and infinities -/

@[simp] theorem isInf_infinity (p : Bool) : isInf (infinity p) = true := by cases p <;> decide

@[simp] theorem isNaN_infinity (p : Bool) : isNaN (infinity p) = false := isNaN_withSign p le_rfl

@[simp] theorem isZero_infinity (p : Bool) : isZero (infinity p) = false := by cases p <;> decide

@[simp] theorem fpFinite_infinity (p : Bool) : fpFinite (infinity p) = false := by simp [fpFinite_eq]

@[simp] theorem signBit_infinity (p : Bool) : signBit (infinity p) = p := signBit_withSign p (by decide)

@[simp] theorem isInf_signedZero (p : Bool) : isInf (signedZero p) = false :=
  not_isInf_of_fpFinite (fpFinite_signedZero p)

@[simp] theorem isNaN_signedZero (p : Bool) : isNaN (signedZero p) = false :=
  not_isNaN_of_fpFinite (fpFinite_signedZero p)

theorem fpNeg_infinity (nan : NanSite → F → F → F) (p : Bool) : fpNeg nan (infinity p) = infinity (!p) := by
  cases p <;> rfl

section InfinityWithInfinity
variable (nan : NanSite → F → F → F) (p q : Bool)

theorem fpAdd_infinity_same : fpAdd nan (infinity p) (infinity p) = infinity p := by simp [fpAdd]

theorem isNaN_fpAdd_infinity_opposite : isNaN (fpAdd nan (infinity p) (infinity (!p))) = true := by
  simp [fpAdd]

theorem isNaN_fpSub_infinity_same : isNaN (fpSub nan (infinity p) (infinity p)) = true := by
  rw [fpSub, fpNeg_infinity, isNaN_fpAdd_infinity_opposite]

theorem fpSub_infinity_opposite : fpSub nan (infinity p) (infinity (!p)) = infinity p := by
  rw [fpSub, fpNeg_infinity, Bool.not_not, fpAdd_infinity_same]

theorem fpMul_infinity_infinity : fpMul nan (infinity p) (infinity q) = infinity (p != q) := by simp [fpMul]

theorem isNaN_fpDiv_infinity_infinity : isNaN (fpDiv nan (infinity p) (infinity q)) = true := by simp [fpDiv]

theorem isNaN_fpMul_zero_infinity : isNaN (fpMul nan (signedZero p) (infinity q)) = true := by simp [fpMul]

theorem isNaN_fpMul_infinity_zero : isNaN (fpMul nan (infinity q) (signedZero p)) = true := by simp [fpMul]

theorem isNaN_fpDiv_zero_zero : isNaN (fpDiv nan (signedZero p) (signedZero q)) = true := by simp [fpDiv]

end InfinityWithInfinity

section InfinityWithFinite
variable (nan : NanSite → F → F → F) (p : Bool) {x : F} (hx : fpFinite x = true)
include hx

theorem fpAdd_infinity_finite : fpAdd nan (infinity p) x = infinity p := by
  simp [fpAdd, not_isNaN_of_fpFinite hx, not_isInf_of_fpFinite hx]

theorem fpAdd_finite_infinity : fpAdd nan x (infinity p) = infinity p := by
  simp [fpAdd, not_isNaN_of_fpFinite hx, not_isInf_of_fpFinite hx]

theorem fpSub_infinity_finite : fpSub nan (infinity p) x = infinity p :=
  fpAdd_infinity_finite nan p (fpFinite_fpNeg nan hx)

theorem fpSub_finite_infinity : fpSub nan x (infinity p) = infinity (!p) := by
  rw [fpSub, fpNeg_infinity, fpAdd_finite_infinity nan _ hx]

theorem fpDiv_finite_infinity : fpDiv nan x (infinity p) = signedZero (signBit x != p) := by
  simp [fpDiv, not_isNaN_of_fpFinite hx, not_isInf_of_fpFinite hx]

theorem fpDiv_infinity_finite : fpDiv nan (infinity p) x = infinity (p != signBit x) := by
  simp [fpDiv, not_isNaN_of_fpFinite hx, not_isInf_of_fpFinite hx]

variable (hz : isZero x = false)
include hz

theorem fpMul_infinity_nonzero : fpMul nan (infinity p) x = infinity (p != signBit x) := by
  simp [fpMul, not_isNaN_of_fpFinite hx, hz]

theorem fpMul_nonzero_infinity : fpMul nan x (infinity p) = infinity (signBit x != p) := by
  simp [fpMul, not_isNaN_of_fpFinite hx, hz]

theorem fpDiv_nonzero_zero : fpDiv nan x (signedZero p) = infinity (signBit x != p) := by
  simp [fpDiv, not_isNaN_of_fpFinite hx, not_isInf_of_fpFinite hx, hz]

end InfinityWithFinite

theorem isNaN_trig (nan : NanSite → F → F → F) (site : NanSite) (g : F → F) {x : F} (hx : fpFinite x = false) :
    isNaN (trig nan site g x) = true := by
  simp [trig, hx]

/-- Settles O43: the lemmas above, by the kinds of the operands. -/
theorem specialOperandsFollowTheDefaults : Obligations.SpecialOperandsFollowTheDefaults :=
  ⟨fun _ _ h => ⟨isNaN_fpAdd _ h, isNaN_fpSub _ h, isNaN_fpMul _ h, isNaN_fpDiv _ h⟩,
    fun p q => ⟨fpAdd_infinity_same _ p, isNaN_fpAdd_infinity_opposite _ p, isNaN_fpSub_infinity_same _ p,
      fpSub_infinity_opposite _ p, fpMul_infinity_infinity _ p q, isNaN_fpDiv_infinity_infinity _ p q,
      isNaN_fpMul_zero_infinity _ p q, isNaN_fpMul_infinity_zero _ p q, isNaN_fpDiv_zero_zero _ p q⟩,
    fun _ p hx => ⟨fpAdd_infinity_finite _ p hx, fpAdd_finite_infinity _ p hx, fpSub_infinity_finite _ p hx,
      fpSub_finite_infinity _ p hx, fpDiv_finite_infinity _ p hx, fpDiv_infinity_finite _ p hx, fun hz =>
        ⟨fpMul_infinity_nonzero _ p hx hz, fpMul_nonzero_infinity _ p hx hz, fpDiv_nonzero_zero _ p hx hz⟩⟩,
    fun _ hx => ⟨isNaN_trig _ _ _ hx, isNaN_trig _ _ _ hx⟩⟩

/-! ### The signs of zeros -/

theorem isNaN_of_isZero {x : F} (h : isZero x = true) : isNaN x = false := by
  rw [eq_signedZero_of_isZero h, isNaN_signedZero]

section Signs
variable (nan : NanSite → F → F → F) {a b : F}

/-- A product that is no NaN has the product of the signs. -/
theorem signBit_fpMul (h : isNaN (fpMul nan a b) = false) : signBit (fpMul nan a b) = (signBit a != signBit b) := by
  revert h
  simp only [fpMul]
  split_ifs <;> simp [signBit_roundQuotient]

/-- So has a quotient. -/
theorem signBit_fpDiv (h : isNaN (fpDiv nan a b) = false) : signBit (fpDiv nan a b) = (signBit a != signBit b) := by
  revert h
  simp only [fpDiv]
  split_ifs <;> simp [signBit_roundQuotient]

/-- Finite values of which one is not zero and whose sum is zero have opposite signs, and the sum is `+0.0`. -/
theorem fpAdd_eq_zero (ha : fpFinite a = true) (hb : fpFinite b = true) (hz : isZero a = false)
    (hsum : realValue a + realValue b = 0) : fpAdd nan a b = signedZero false := by
  rw [realValue_eq_scaledInt, realValue_eq_scaledInt, ← add_div, div_eq_zero_iff, or_iff_left (by positivity)] at hsum
  have hsum' : scaledInt a + scaledInt b = 0 := by exact_mod_cast hsum
  have hmag : magnitude a ≠ 0 := by rwa [Ne, magnitude_eq_zero_iff, Bool.not_eq_true]
  have hsign : (signBit a && signBit b) = false := by
    rw [← Bool.not_eq_true, Bool.and_eq_true]
    rintro ⟨hna, hnb⟩
    rw [scaledInt, scaledInt, if_pos hna, if_pos hnb] at hsum'
    omega
  rw [fpAdd_finite nan ha hb, if_pos hsum', hsign]

end Signs

/-- Settles O44: a zero is no NaN, and only the rounding and the sign rules make it. -/
theorem zerosCarryTheirSigns : Obligations.ZerosCarryTheirSigns :=
  ⟨fun _ _ h => signBit_fpMul _ (isNaN_of_isZero h), fun _ _ h => signBit_fpDiv _ (isNaN_of_isZero h),
    fun p q => fpAdd_signedZero p q _, fun _ _ => fpAdd_eq_zero _⟩

/-! ### The order of the extended reals -/

theorem eq_infinity_of_isInf {x : F} (h : isInf x = true) : x = infinity (signBit x) := by
  simp only [isInf, expField, fracField, Bool.and_eq_true, beq_iff_eq] at h
  refine BitVec.eq_of_toNat_eq ?_
  rw [infinity, withSign_toNat _ (by decide), signBit_eq, infLow]
  simp only [decide_eq_true_eq]
  split <;> omega

/-- A value that is no NaN is finite or one of the two infinities. -/
theorem finite_or_infinity {x : F} (h : isNaN x = false) :
    fpFinite x = true ∨ x = infinity true ∨ x = infinity false := by
  by_cases hinf : isInf x = true
  · have heq := eq_infinity_of_isInf hinf
    cases hs : signBit x
    · exact .inr (.inr (hs ▸ heq))
    · exact .inr (.inl (hs ▸ heq))
  · exact .inl (by simp [fpFinite_eq, h, hinf])

theorem realValue_infinity (p : Bool) : realValue (infinity p) = signFactor p * 2 ^ 128 := by
  have hmag : magnitude (infinity p) = 2 ^ 128 * 2 ^ 150 := by cases p <;> decide
  rw [realValue_eq_signFactor_mul, signBit_infinity, hmag, Nat.cast_mul, Nat.cast_pow, Nat.cast_pow,
    Nat.cast_two, mul_div_cancel_right₀ _ (by positivity)]

theorem abs_realValue_lt {x : F} (h : fpFinite x = true) : |realValue x| < 2 ^ 128 := by
  have hfield : expField x < 2 ^ 8 := Nat.mod_lt _ (by decide)
  have hnot : expField x ≠ 255 := by simpa [fpFinite] using h
  have hmag : magnitude x < 2 ^ 128 * 2 ^ 150 :=
    calc magnitude x < 2 ^ 23 * 2 ^ (expField x + 1) := magnitude_lt_next_binade x
      _ ≤ 2 ^ 23 * 2 ^ 255 := Nat.mul_le_mul_left _ (Nat.pow_le_pow_right two_pos (by omega))
      _ = 2 ^ 128 * 2 ^ 150 := by decide
  rw [realValue_eq_signFactor_mul, abs_mul, abs_signFactor, one_mul, abs_of_nonneg (by positivity),
    div_lt_iff₀ (by positivity)]
  exact_mod_cast hmag

theorem ne_infinity_of_fpFinite {x : F} (h : fpFinite x = true) (p : Bool) : x ≠ infinity p := by
  rintro rfl
  simp at h

/-- The order of the formula's values is that of the extended reals: an infinity's is beyond every finite value. -/
theorem realValue_lt_iff {a b : F} (ha : isNaN a = false) (hb : isNaN b = false) :
    realValue a < realValue b ↔
      (fpFinite a = true ∧ fpFinite b = true ∧ realValue a < realValue b) ∨
        (a = infinity true ∧ b ≠ infinity true) ∨ (b = infinity false ∧ a ≠ infinity false) := by
  have hneg : realValue (infinity true) = -2 ^ 128 := by rw [realValue_infinity]; exact neg_one_mul _
  have hpos : realValue (infinity false) = 2 ^ 128 := by rw [realValue_infinity]; exact one_mul _
  have hne : infinity false ≠ infinity true := by decide
  have hbelow : (-2 ^ 128 : ℚ) < 2 ^ 128 := by norm_num
  obtain hfa | rfl | rfl := finite_or_infinity ha <;> obtain hfb | rfl | rfl := finite_or_infinity hb
  · simp [hfa, hfb, ne_infinity_of_fpFinite]
  · have hbound := neg_lt_of_abs_lt (abs_realValue_lt hfa)
    simp [hneg, hbound.le, hne.symm, ne_infinity_of_fpFinite hfa]
  · have hbound := lt_of_abs_lt (abs_realValue_lt hfa)
    simp [hpos, hbound, ne_infinity_of_fpFinite hfa]
  · have hbound := neg_lt_of_abs_lt (abs_realValue_lt hfb)
    simp [hneg, hbound, ne_infinity_of_fpFinite hfb]
  · simp [hne.symm]
  · simp [hneg, hpos, hbelow, hne]
  · have hbound := lt_of_abs_lt (abs_realValue_lt hfb)
    simp [hpos, hbound.le, hne, ne_infinity_of_fpFinite hfb]
  · simp [hneg, hpos, hne, hne.symm]
  · simp [hne]

/-- Settles O45: the order of the patterns is the order of the formula's values. -/
theorem comparisonsOrderTheExtendedReals : Obligations.ComparisonsOrderTheExtendedReals := fun a b => by
  refine ⟨?_, rfl, ?_⟩
  · have hflt : hardwareNum.flt a b = true ↔ isNaN a = false ∧ isNaN b = false ∧ realValue a < realValue b :=
      fpLt_iff
    rw [hflt]
    exact and_congr_right fun ha => and_congr_right fun hb => realValue_lt_iff ha hb
  · rw [extractLsb'_exponent]
    exact bne_iff_ne

/-! ### Conversions of integers -/

/-- An integer up to `2^24` is at most 24 bits, shifted. -/
theorem exists_short_significand {n : Int} (h : |n| ≤ 2 ^ 24) :
    ∃ m e, m < 2 ^ 24 ∧ 24 ≤ e ∧ e ≤ 254 ∧ n.natAbs * 2 ^ 150 = m * (1 * 2 ^ e) := by
  have hle : n.natAbs ≤ 2 ^ 24 := by
    rw [Int.abs_eq_natAbs] at h
    exact_mod_cast h
  obtain hlt | heq : n.natAbs < 2 ^ 24 ∨ n.natAbs = 2 ^ 24 := lt_or_eq_of_le hle
  · exact ⟨n.natAbs, 150, hlt, by decide, by decide, by rw [one_mul]⟩
  · exact ⟨2 ^ 23, 151, by decide, by decide, by decide, by rw [heq]; decide⟩

theorem fpOfInt_exact {n : Int} (h : |n| ≤ 2 ^ 24) : fpFinite (fpOfInt n) = true ∧ realValue (fpOfInt n) = n := by
  obtain ⟨m, e, hm, he, he', hexact⟩ := exists_short_significand h
  refine ⟨fpFinite_roundQuotient_of_short hm he he' hexact one_pos _, ?_⟩
  rw [fpOfInt, realValue_roundQuotient_of_short hm he he' hexact one_pos, Nat.cast_one, div_one, sign_mul_natAbs]

/-- Settles O46: the integer's significant bits fit the significand. -/
theorem integersConvertExactly : Obligations.IntegersConvertExactly :=
  ⟨fun _ => fpOfInt_exact, by decide, by decide, by decide⟩

/-! ### Quantisation -/

/-- The integer part of a fraction, in whole numbers. -/
theorem truncReal_div (n : ℤ) (d : ℕ) : truncReal (n / d) = n.tdiv d := by
  obtain rfl | hd := Nat.eq_zero_or_pos d
  · simp [truncReal]
  have hd' : (0 : ℚ) < d := by exact_mod_cast hd
  rw [truncReal]
  split
  next h =>
    have hn : 0 ≤ n := by
      rw [le_div_iff₀ hd', zero_mul] at h
      exact_mod_cast h
    rw [Rat.floor_intCast_div_natCast, Int.tdiv_eq_ediv_of_nonneg hn]
  next h =>
    have hn : 0 ≤ -n := by
      rw [le_div_iff₀ hd', zero_mul, not_le] at h
      have hlt : n < 0 := by exact_mod_cast h
      omega
    rw [Rat.ceil_intCast_div_natCast, ← Int.tdiv_eq_ediv_of_nonneg hn, Int.neg_tdiv, neg_neg]

theorem fpTrunc_finite {y : F} (h : fpFinite y = true) : fpTrunc y = some (truncReal (realValue y)) := by
  have hunits : realValue y = scaledInt y / (2 ^ 150 : ℕ) := by
    rw [realValue_eq_scaledInt, Nat.cast_pow, Nat.cast_two]
  rw [fpTrunc, if_pos h, hunits, truncReal_div, Nat.cast_pow, Nat.cast_two]

/-- The numbers whose integer part is a sample (R159). -/
theorem inSampleRange_truncReal (x : ℚ) : inSampleRange (truncReal x) = true ↔ -32769 < x ∧ x < 32768 := by
  rw [inSampleRange, Bool.and_eq_true, decide_eq_true_eq, decide_eq_true_eq, truncReal]
  split
  next h =>
    rw [Int.le_floor, Int.floor_le_iff]
    push_cast
    constructor
    · exact fun ⟨_, hlt⟩ => ⟨by linarith, by linarith⟩
    · exact fun ⟨_, hlt⟩ => ⟨by linarith, by linarith⟩
  next h =>
    rw [Int.le_ceil_iff, Int.ceil_le]
    push_cast
    constructor
    · exact fun ⟨hlt, _⟩ => ⟨by linarith, by linarith⟩
    · exact fun ⟨hlt, _⟩ => ⟨by linarith, by linarith⟩

theorem toInt_sampleCell {t : Int} (h : inSampleRange t = true) : (sampleCell t).toInt = t := by
  rw [inSampleRange, Bool.and_eq_true, decide_eq_true_eq, decide_eq_true_eq] at h
  rw [sampleCell, BitVec.toInt_ofInt, Int.bmod_eq_of_le (by omega) (by omega)]

theorem quantise_finite {y : F} (h : fpFinite y = true) :
    quantise hardware y =
      if inSampleRange (truncReal (realValue y)) then sampleCell (truncReal (realValue y)) else Config.qovf y := by
  have hfin : hardware.num.isfinite y = true := h
  have htrunc : hardware.num.ftrunc y = some (truncReal (realValue y)) := fpTrunc_finite h
  rw [quantise, if_pos hfin, htrunc]
  rfl

theorem quantise_not_finite {y : F} (h : fpFinite y = false) : quantise hardware y = Config.qovf y := by
  have hfin : hardware.num.isfinite y = false := h
  rw [quantise, hfin]
  rfl

/-- Settles O48: the integer part is a sample exactly between the two bounds. -/
theorem quantDiscardsTheFraction : Obligations.QuantDiscardsTheFraction := by
  intro y
  constructor
  · intro hfin hlow hhigh
    have hrange := (inSampleRange_truncReal (realValue y)).2 ⟨hlow, hhigh⟩
    rw [quantise_finite hfin, if_pos hrange, toInt_sampleCell hrange]
  · intro hout
    cases hfin : fpFinite y
    · exact quantise_not_finite hfin
    · have hrange : ¬inSampleRange (truncReal (realValue y)) = true := fun h => by
        obtain ⟨hlow, hhigh⟩ := (inSampleRange_truncReal _).1 h
        obtain hnot | hbelow | habove := hout
        · simp [hfin] at hnot
        · exact hbelow.not_gt hlow
        · exact habove.not_gt hhigh
      rw [quantise_finite hfin, if_neg hrange]

end Sys2Proof.Machine
end

section
/-! PROOFS. Exceptions and arbitration (spec/60): what stops a step, RESET over the other ports, words presented
together, and the idle hardware. -/

namespace Sys2Proof.Machine

/-! ### What is refused -/

theorem portsDistinct_iff {offers : List Offer} : portsDistinct offers = true ↔ (offers.map (·.frame.port)).Nodup :=
  decide_eq_true_iff

theorem nextSlot_eq_twice_iff {events : List Input} :
    nextSlot events = .twice ↔
      ∃ offers rest, events = .together offers :: rest ∧ ¬(offers.map (·.frame.port)).Nodup := by
  constructor
  · intro h
    obtain ⟨offers, rest, hevents, hclash⟩ := nextSlot_eq_twice h
    exact ⟨offers, rest, hevents, fun hports => by simp [portsDistinct_iff.2 hports] at hclash⟩
  · rintro ⟨offers, rest, rfl, hclash⟩
    rw [nextSlot_together, togetherSlot, if_neg (mt portsDistinct_iff.1 hclash)]

/-- The hardware's own move is never refused: it takes no word. -/
theorem ownMove_ne_refused {im : Impl} {s : State} {r : Refusal} : ownMove im s ≠ .refused r := by
  cases hp : s.seq.phase with
  | ready => rw [ownMove_ready hp]; exact fun h => by cases h
  | busy => rw [ownMove_busy hp]; exact sequencerMove_ne_refused

/-- What cannot be presented, and the name it is refused by (R56, R83, R88, R220; log 21, 27). -/
inductive RefusedCase (s : State) : Refusal → Prop where
  | notAWord (o : Offer) (rest : List Input) (hslot : nextSlot s.inputs = .offered o rest)
      (hdec : decode o.frame = .error .wrongWidth ∨ decode o.frame = .error .bitsAboveWidth) : RefusedCase s .notAWord
  | notPresentable (o : Offer) (rest : List Input) (i : Instr) (hslot : nextSlot s.inputs = .offered o rest)
      (hdec : decode o.frame = .ok i) (hp : o.supply.wf s.cfg.N i = false) : RefusedCase s .notPresentable
  | portTakenTwice (hslot : nextSlot s.inputs = .twice) : RefusedCase s .portTakenTwice

/-- What cannot be presented is refused, by its name. -/
theorem step_of_refusedCase {s : State} {r : Refusal} (h : RefusedCase s r) : step s = .refused r := by
  cases h with
  | notAWord o rest hslot hdec =>
    rw [step_of_offered hslot, takeOffer]
    obtain hdec | hdec := hdec <;> rw [hdec]
  | notPresentable o rest i hslot hdec hp =>
    rw [step_of_offered hslot, takeOffer]
    simp only [hdec, takeInput_cfg, hp, Bool.false_eq_true, if_false]
  | portTakenTwice hslot => exact step_of_twice hslot

/-- Nothing else is: an operation once issued runs or faults, and so does the hardware's own move. -/
theorem refusedCase_of_step {s : State} {r : Refusal} (h : step s = .refused r) : RefusedCase s r := by
  cases hslot : nextSlot s.inputs with
  | nothing rest => exact absurd (step_of_nothing hslot ▸ h) ownMove_ne_refused
  | twice =>
    rw [step_of_twice hslot] at h
    cases h
    exact .portTakenTwice hslot
  | offered o rest =>
    rw [step_of_offered hslot, takeOffer] at h
    split at h
    · next i hdec =>
      split at h
      · exact absurd h issue_ne_refused
      · next hp =>
        cases h
        exact .notPresentable o rest i hslot hdec (Bool.eq_false_iff.2 hp)
    · exact absurd h ownMove_ne_refused
    · next hdec => cases h; exact .notAWord o rest hslot (.inl hdec)
    · next hdec => cases h; exact .notAWord o rest hslot (.inr hdec)

theorem step_eq_refused_iff {s : State} {r : Refusal} : step s = .refused r ↔ RefusedCase s r :=
  ⟨refusedCase_of_step, step_of_refusedCase⟩

/-- While BUSY, the invariant keeps the sequencer at a cell or at `(1, N)`, so its own move finds its cell (R30, R53). -/
theorem Inv.fault_eq_deadlineMiss {s : State} {r : Fault} (h : Inv s) (hr : step s = .fault r) :
    r = .deadlineMiss ∧ TickWhileBusy s := by
  obtain ⟨-, hb, hle, hend⟩ | hmiss := step_eq_fault hr
  · have hpos := h.position
    simp only [Sequencer.Legal, hb] at hpos
    obtain hi | hdone := hpos
    · exact absurd hi hle.not_gt
    · exact absurd hdone hend
  · exact hmiss

/-- Settles O33: the invariant leaves only a tick while BUSY to fault, and each refusal has one case. -/
theorem onlyADeadlineMissStops : Obligations.OnlyADeadlineMissStops := by
  refine ⟨fun s h r => h.fault_eq_deadlineMiss, fun s => ⟨?_, ?_, ?_, fun r hr => ?_⟩⟩
  · rw [step_eq_refused_iff]
    exact ⟨fun | .notAWord o rest hslot hdec => ⟨o, rest, hslot, hdec⟩,
      fun ⟨o, rest, hslot, hdec⟩ => .notAWord o rest hslot hdec⟩
  · rw [step_eq_refused_iff]
    exact ⟨fun | .notPresentable o rest i hslot hdec hp => ⟨o, rest, i, hslot, hdec, hp⟩,
      fun ⟨o, rest, i, hslot, hdec, hp⟩ => .notPresentable o rest i hslot hdec hp⟩
  · rw [step_eq_refused_iff, ← nextSlot_eq_twice_iff]
    exact ⟨fun | .portTakenTwice hslot => hslot, .portTakenTwice⟩
  · cases refusedCase_of_step hr with
    | notAWord => exact .inl rfl
    | notPresentable => exact .inr (.inl rfl)
    | portTakenTwice => exact .inr (.inr rfl)

/-! ### Words presented together -/

/-- Words at different ports: the first that arbitration keeps is taken, the others it keeps follow (R186). -/
theorem nextSlot_of_arbitrate {offers more : List Offer} {o : Offer} (rest : List Input)
    (hports : (offers.map (·.frame.port)).Nodup) (h : arbitrate offers = o :: more) :
    nextSlot (.together offers :: rest) = .offered o (more.map Offer.input ++ rest) := by
  rw [nextSlot_together, togetherSlot, if_pos (portsDistinct_iff.2 hports), h]

/-- RESET has one word, and it stands at the reset input (R80, R86). -/
theorem port_of_decode_reset {f : Frame} (h : decode f = .ok .reset) : f.port = .rst := by
  rw [encode_of_decode h]
  rfl

/-- At different ports only one word can ask for RESET, so it is the one that arbitration keeps (R212). -/
theorem arbitrate_of_reset {offers : List Offer} {o : Offer} (hports : (offers.map (·.frame.port)).Nodup)
    (ho : o ∈ offers) (hdec : decode o.frame = .ok .reset) : arbitrate offers = [o] := by
  obtain ⟨kept, hkept, hasks, harb⟩ | ⟨hnone, -⟩ := arbitrate_cases offers
  · have hport : kept.frame.port = o.frame.port := by
      rw [port_of_decode_reset (asksReset_iff.1 hasks), port_of_decode_reset hdec]
    rw [harb, List.inj_on_of_nodup_map hports hkept ho hport]
  · exact absurd (asksReset_iff.2 hdec) (Bool.eq_false_iff.1 (hnone o ho))

/-- Where no word asks for RESET, arbitration keeps them all. -/
theorem arbitrate_of_no_reset {offers : List Offer} (h : ∀ o ∈ offers, decode o.frame ≠ .ok .reset) :
    arbitrate offers = offers := by
  obtain ⟨o, ho, hasks, -⟩ | ⟨-, harb⟩ := arbitrate_cases offers
  · exact absurd (asksReset_iff.1 hasks) (h o ho)
  · exact harb

/-- A word without blocks puts none in place. -/
theorem place_none (s : State) : place ⟨none, none⟩ s = s := rfl

/-- Settles O6: arbitration keeps RESET alone, and it brings no blocks. -/
theorem resetOverridesBothPorts : Obligations.ResetOverridesBothPorts := by
  rintro s offers rest hin hports ⟨o, ho, hdec, hsupply⟩
  have hslot : nextSlot s.inputs = .offered o rest :=
    hin ▸ nextSlot_of_arbitrate rest hports (arbitrate_of_reset hports ho hdec)
  have hfits : o.supply.wf s.cfg.N .reset = true := by rw [hsupply]; rfl
  rw [step_offered hslot hdec hfits, hsupply, place_none, issue_of_ne_procRun _ _ (by decide), takeInput]

/-- Settles O7: both slots hold the first word, and the same events follow. -/
theorem wordsTogetherAreTakenInTurn : Obligations.WordsTogetherAreTakenInTurn := by
  intro s offers rest hin hports hne hnoReset
  obtain ⟨o, more, rfl⟩ := List.exists_cons_of_ne_nil hne
  have htogether : nextSlot s.inputs = .offered o (more.map Offer.input ++ rest) :=
    hin ▸ nextSlot_of_arbitrate rest hports (arbitrate_of_no_reset hnoReset)
  have hinTurn : nextSlot ((o :: more).map Offer.input ++ rest) = .offered o (more.map Offer.input ++ rest) :=
    nextSlot_input o _
  rw [step_of_offered htogether, step_of_offered (s := { s with inputs := _ }) hinTurn]
  rfl

/-! ### Idle -/

/-- Settles O8: with no word to take, READY hardware makes no move. -/
theorem idleKeepsAllState : Obligations.IdleKeepsAllState := by
  intro s hr
  constructor
  · intro hin
    rw [step_nil hin, ownMove_ready hr]
  · intro rest hin
    rw [step_quiet hin, ownMove_ready (s := takeInput rest s) hr, takeInput]

end Sys2Proof.Machine
end

section
/-! PROOFS. Reset and hazards (spec/70): what RESET restores, the cells of a call it abandons, and how far back an
output sample looks. -/

namespace Sys2Proof.Machine

/-! ### RESET -/

/-- RESET goes on from every state (R211, R212). -/
theorem exec_reset (s : State) : exec .reset s = .next (resetMachine hardware s) := rfl

/-- `ZERO` of this hardware is `+0.0` (R153). -/
theorem zeroDelays_hardware : zeroDelays hardware.num = ⟨0#32, 0#32, 0#32, 0#32⟩ := rfl

/-- Settles O39: R211, field by field. -/
theorem resetRestoresTheDefaults : Obligations.ResetRestoresTheDefaults := by
  intro s
  refine ⟨_, exec_reset s, resetMachine_P hardware s, resetMachine_C hardware s, ?_, ?_, resetMachine_phase hardware s,
    resetMachine_outputs hardware s, resetMachine_inputs hardware s, resetMachine_cfg hardware s, fun hr => ?_⟩
  · rw [resetMachine_d0, zeroDelays_hardware]
  · rw [resetMachine_d1, zeroDelays_hardware]
  · rw [resetMachine_mem, memoryAfterReset_ready hr]

/-! ### A call abandoned by RESET -/

/-- Each cell of an abandoned block is chosen by itself (R212). -/
theorem blockRead_abandonedBlock {free n i : Nat} (c : Channel) (input filtered : Block) (hi : i < n) :
    blockRead (abandonedBlock free n c input filtered) i =
      if Config.keepsInput free c i then blockRead input i else blockRead filtered i := by
  rw [abandonedBlock, blockRead_blockFrom, if_pos (by omega)]

/-- While BUSY the choice is between the cell as it was lent and the cell as the rest of the call would leave it. -/
theorem memRead_memoryAfterReset_busy (im : Impl) {s : State} {c : Channel} {i : Nat} (hb : s.seq.phase = .busy)
    (hi : i < s.cfg.N) :
    memRead (memoryAfterReset im s) c i =
      if Config.keepsInput s.free c i then memRead s.lent c i
      else memRead (sampleSteps im (samplesLeft s) s).mem c i := by
  simp only [memoryAfterReset, hb]
  cases c with
  | ch0 => exact blockRead_abandonedBlock .ch0 _ _ hi
  | ch1 => exact blockRead_abandonedBlock .ch1 _ _ hi

/-- Each of the SAMPLE transitions a call has left leaves one less, from any position of R30. -/
theorem samplesLeft_sampleSteps (im : Impl) {k : Nat} {s : State} (hb : s.seq.phase = .busy)
    (hl : s.seq.Legal s.cfg.N) (hk : k ≤ samplesLeft s) : samplesLeft (sampleSteps im k s) + k = samplesLeft s := by
  induction k generalizing s with
  | zero => rfl
  | succ k ih =>
    have hi := index_lt_of_samplesLeft_pos hb hl (by omega)
    have hleft := samplesLeft_sampleStep im hi
    have hpos : (sampleStep im s).seq.Legal (sampleStep im s).cfg.N := by
      rw [sampleStep_cfg, sampleStep_seq]
      exact nextPosition_legal _ (by omega)
    have hrest := ih (nextPosition_phase _ _) hpos (by omega)
    rw [sampleSteps_succ]
    omega

/-- From any point of a call, its SAMPLE transitions still left complete those of the whole call (R121). -/
theorem sampleSteps_rest_of_call (im : Impl) {s : State} {k : Nat} (hn : 1 ≤ s.cfg.N) (hk : k ≤ 2 * s.cfg.N) :
    sampleSteps im (samplesLeft (sampleSteps im k (procBegin s))) (sampleSteps im k (procBegin s)) =
      sampleSteps im (2 * s.cfg.N) (procBegin s) := by
  have hbegin := samplesLeft_procBegin s
  have hleft := samplesLeft_sampleSteps im (s := procBegin s) rfl (.inl hn) (hk.trans hbegin.ge)
  rw [← sampleSteps_add, Nat.add_comm, hleft, hbegin]

/-- Settles O40: RESET chooses between the blocks as PROC.BEGIN lent them and those of the call carried to its end. -/
theorem abandonedCellsHoldInputOrFiltered : Obligations.AbandonedCellsHoldInputOrFiltered := by
  intro s u k hr hn _ hk hu
  have hwhole : u = procCall hardware s := (whenReady_eq_next hu).2
  refine ⟨_, exec_reset _, fun c i hi => ?_⟩
  rw [resetMachine_mem, memRead_memoryAfterReset_busy hardware (sampleSteps_phase hardware k rfl)
    (by rwa [sampleSteps_cfg, procBegin_cfg]), sampleSteps_rest_of_call hardware hn hk, sampleSteps_lent,
    procBegin_lent, hwhole, procCall, procEnd_mem]
  split
  · exact .inl rfl
  · exact .inr rfl

/-! ### An output sample and the past -/

theorem blockCells_take {k n : Nat} (b : Block) (hk : k ≤ n) : (blockCells n b).take k = blockCells k b := by
  rw [blockCells, ← List.map_take, List.take_range, Nat.min_eq_left hk, blockCells]

/-- Two blocks have the same first `k` cells where they read alike before index `k`. -/
theorem blockCells_eq_iff {k : Nat} {b b' : Block} :
    blockCells k b = blockCells k b' ↔ ∀ i, i < k → blockRead b i = blockRead b' i := by
  simp only [blockCells, List.map_inj_left, List.mem_range]

/-- The first outputs of `Run` are `Run` of the first inputs (R131, R223). -/
theorem filterRun_take (im : Impl) (cfg : Config) (coeffs : CoefficientSet) (d : ChannelState) (k : Nat)
    (xs : List Cell) : (filterRun im cfg coeffs d xs).2.take k = (filterRun im cfg coeffs d (xs.take k)).2 := by
  induction xs generalizing k d with
  | nil => simp [filterRun]
  | cons x xs ih =>
    cases k with
    | zero => rfl
    | succ k => simp only [filterRun, List.take_succ_cons, ih]

/-- The first `k` cells a call leaves are `Run` of the first `k` cells it was given. -/
theorem procCall_firstCells (im : Impl) {s : State} {k : Nat} (hm : Memory.wf s.cfg.N s.mem = true) (c : Channel)
    (hk : k ≤ s.cfg.N) :
    blockCells k (memBlock (procCall im s).mem c) =
      (filterRun im s.cfg s.C (delays s c) (blockCells k (memBlock s.mem c))).2 := by
  rw [← blockCells_take _ hk, ← blockCells_take (memBlock s.mem c) hk, ← filterRun_take,
    ← procCall_eq_filterRun im hm c]

/-- Settles O24: the first `k` outputs are one function of the registers, the set and the first `k` inputs. -/
theorem outputDependsOnThePastOnly : Obligations.OutputDependsOnThePastOnly := by
  intro c k s s' hr hr' hcfg hC hd hm hm' hk hin
  refine ⟨_, _, exec_procRun_ready hr, exec_procRun_ready hr', blockCells_eq_iff.1 ?_⟩
  have hcells : blockCells k (memBlock s'.mem c) = blockCells k (memBlock s.mem c) := blockCells_eq_iff.2 hin
  rw [procCall_firstCells hardware hm c hk, procCall_firstCells hardware (by rwa [hcfg]) c (by rwa [hcfg]),
    hcells, hcfg, hC, hd]

end Sys2Proof.Machine
end
